-- ==== Sys2Proof/Config.lean ====
section
/-! DEFINITION. The implementation parameter of the block: the RawBlock length `N` (spec/00_scope.md R6;
spec/92_eei_decisions.md D5). -/

namespace Sys2Proof

/-- The RawBlock length `N`, OPEN in the spec: "the model takes `N` as an argument with `N >= 3`" (R6, R41). The
model's argument stands in `State` (log 1). -/
abbrev BlockLength := { n : Nat // 3 ≤ n }

/-- The reference value `N = 4` of R6 and D5, used by every test vector of spec/95_test_vectors.md and by
`State.reset`. DESIGN CHOICE, unsafe: the spec does not fix `N` (log 1). -/
def Config.referenceLength : BlockLength := ⟨4, by decide⟩

end Sys2Proof
end

