-- ==== Sys2Proof/Word.lean ====
section
/-! DEFINITION. The bit-vector widths of the block: byte, nibble, syndrome and command word (spec/00_scope.md R6, R9;
spec/30_encoding.md R70). -/

namespace Sys2Proof

/-- A byte: 8 bits, bit 0 the least significant (R9). A codeword is one byte (R60). -/
abbrev Byte := BitVec 8

/-- A nibble: the 4 data bits of one codeword (R9, R61). -/
abbrev Nibble := BitVec 4

/-- A syndrome: the 3-bit value of R131. -/
abbrev Syndrome := BitVec 3

/-- The operation select `OP`: 3 bits (R70). -/
abbrev OpSelect := BitVec 3

/-- The command word `CMD`: 27 bits, `OP`, `C`, `B`, `A` from the most significant end (R70). -/
abbrev CmdWord := BitVec 27

end Sys2Proof
end

