-- ==== Sys2Proof/Syntax.lean ====
section
/-! DEFINITION. The eight operations of the block, one constructor per row of spec/opcode_table.json
(spec/30_encoding.md R70, R71). -/

namespace Sys2Proof

/-- One operation with the three byte fields `A`, `B`, `C` of its command word. R70 gives every operation the same
format, so every constructor carries all three fields; those the operation does not read are ignored by its meaning
(R72; log 18). -/
inductive Instr where
  /-- `OP = 0`: XOR checksum of `A` and `B` (R91). -/
  | csum (a b c : Byte)
  /-- `OP = 1`: codeword of the nibble `A[3:0]` (R92). -/
  | henc (a b c : Byte)
  /-- `OP = 2`: wire block of type `A` and data `B` (R95). -/
  | encode (a b c : Byte)
  /-- `OP = 3`: checksum validation of `A`, `B` against `C` (R111). -/
  | chk (a b c : Byte)
  /-- `OP = 4`: decoding of the wire block on `WIN` (R112). -/
  | decode (a b c : Byte)
  /-- `OP = 5`: syndrome of the codeword `A` (R131). -/
  | hsyn (a b c : Byte)
  /-- `OP = 6`: corrected codeword of `A` (R133). -/
  | hcor (a b c : Byte)
  /-- `OP = 7`: decoded nibble of `A` (R134). -/
  | hdec (a b c : Byte)
deriving DecidableEq, Repr

end Sys2Proof
end

