-- ==== Sys2Proof/WellFormed.lean ====
section
/-! DEFINITION. Well-formedness: no operation has an illegal operand (spec/30_encoding.md R67, R75, R76), and the checks
that untyped numbers and bytes must pass before they are a request of the block (spec/00_scope.md R6,
spec/20_memory.md R44, spec/30_encoding.md R77). -/

namespace Sys2Proof

/-- Every instruction is well formed: "Any 27-bit `CMD` is a legal request" (R75), no type or data value is reserved
(R76) and there are no operand modes (R67). The widths are in the types. -/
def Instr.wellFormed : Instr → Bool
  | .csum _ _ _ => true
  | .henc _ _ _ => true
  | .encode _ _ _ => true
  | .chk _ _ _ => true
  | .decode _ _ _ => true
  | .hsyn _ _ _ => true
  | .hcor _ _ _ => true
  | .hdec _ _ _ => true

/-- A number is a command word when it fits 27 bits: "the command word is always 27 bits" (R77). -/
def commandWordOk (w : Nat) : Bool := decide (w < 2 ^ 27)

/-- A number is a block length when it is at least 3 (R6, R41). -/
def blockLengthOk (n : Nat) : Bool := decide (3 ≤ n)

/-- A byte sequence is a wire block for RawBlocks of `n` bytes when it has exactly `2 * n` bytes (R44). A shorter one
has no meaning (spec/93_implementation_defined.md U7). -/
def wireBlockOk (n : Nat) (bytes : List Byte) : Bool := decide (bytes.length = 2 * n)

end Sys2Proof
end

