-- ==== Sys2Proof/Decode.lean ====
section
/-! DEFINITION. The decoder of the 27-bit command word and, after it, the encoder (spec/30_encoding.md R70, R71, R75,
R77). -/

namespace Sys2Proof

/-- Field `A` of the command word, bits 7:0 (R70). -/
def fieldA (w : CmdWord) : Byte := w.extractLsb' 0 8

/-- Field `B` of the command word, bits 15:8 (R70). -/
def fieldB (w : CmdWord) : Byte := w.extractLsb' 8 8

/-- Field `C` of the command word, bits 23:16 (R70). -/
def fieldC (w : CmdWord) : Byte := w.extractLsb' 16 8

/-- The operation a command word selects by its bits 26, 25 and 24 (`OP`, most significant first). Total: all eight
values of `OP` are assigned and none is reserved (R71, R75). -/
def decodeWord (w : CmdWord) : Instr :=
  match w.getLsbD 26, w.getLsbD 25, w.getLsbD 24 with
  | false, false, false => .csum (fieldA w) (fieldB w) (fieldC w)
  | false, false, true => .henc (fieldA w) (fieldB w) (fieldC w)
  | false, true, false => .encode (fieldA w) (fieldB w) (fieldC w)
  | false, true, true => .chk (fieldA w) (fieldB w) (fieldC w)
  | true, false, false => .decode (fieldA w) (fieldB w) (fieldC w)
  | true, false, true => .hsyn (fieldA w) (fieldB w) (fieldC w)
  | true, true, false => .hcor (fieldA w) (fieldB w) (fieldC w)
  | true, true, true => .hdec (fieldA w) (fieldB w) (fieldC w)

/-- Why a number is no command. -/
inductive DecodeError where
  /-- The number does not fit the 27 bits of a command word (R77): it cannot be presented on `CMD`. Raised by
  `decodeCommand`. Safe: the block has no such request. -/
  | notACommandWord
deriving DecidableEq, Repr

/-- The operation a number stands for as a command word, or the reason it is none. -/
def decodeCommand (w : Nat) : Except DecodeError Instr :=
  if commandWordOk w then .ok (decodeWord (BitVec.ofNat 27 w)) else .error .notACommandWord

/-- The instruction read from the low `nbits` bits of `w`, every bit above them zero. The 27 bits of the row lie in 4
bytes; bits 31 to 27 are no part of a command word, so a word with one of them set is refused (log 5). -/
def decodeTableWord (nbits w : Nat) : Option Instr := (decodeCommand (w % 2 ^ nbits)).toOption

/-- The 27 bits driven on `CMD` for the low `nbits` bits of `w` (log 5). -/
def commandOfBits (nbits w : Nat) : CmdWord := BitVec.ofNat 27 (w % 2 ^ nbits)

/-- The `OP` value of an operation (R71). -/
def Instr.opSelect : Instr → OpSelect
  | .csum _ _ _ => 0b000#3
  | .henc _ _ _ => 0b001#3
  | .encode _ _ _ => 0b010#3
  | .chk _ _ _ => 0b011#3
  | .decode _ _ _ => 0b100#3
  | .hsyn _ _ _ => 0b101#3
  | .hcor _ _ _ => 0b110#3
  | .hdec _ _ _ => 0b111#3

/-- Assembles a command word from its four fields, `OP` most significant (R70). -/
def commandWord (op : OpSelect) (c b a : Byte) : CmdWord := op ++ c ++ b ++ a

/-- The command word of an instruction (R70, R71). -/
def encode (i : Instr) : CmdWord :=
  match i with
  | .csum a b c => commandWord i.opSelect c b a
  | .henc a b c => commandWord i.opSelect c b a
  | .encode a b c => commandWord i.opSelect c b a
  | .chk a b c => commandWord i.opSelect c b a
  | .decode a b c => commandWord i.opSelect c b a
  | .hsyn a b c => commandWord i.opSelect c b a
  | .hcor a b c => commandWord i.opSelect c b a
  | .hdec a b c => commandWord i.opSelect c b a

end Sys2Proof
end

