-- ==== Sys2Proof/Machine/Operands.lean ====
section
/-! DEFINITION. Operand assembly: the halves of a byte, their recombination, the nibble operand, and the parity of a
byte (spec/30_encoding.md R65, R66, R67, R72; spec/42_codeword_correction.md R130). -/

namespace Sys2Proof.Machine

/-- The high nibble of a byte, bits 7:4 (R65). -/
def highNibble (b : Byte) : Nibble := b.extractLsb' 4 4

/-- The low nibble of a byte, bits 3:0 (R65). -/
def lowNibble (b : Byte) : Nibble := b.extractLsb' 0 4

/-- `zext_8` of a nibble (R10). -/
def zextNibble (n : Nibble) : Byte := n.setWidth 8

/-- `zext_8` of a syndrome (R10). -/
def zextSyndrome (s : Syndrome) : Byte := s.setWidth 8

/-- The byte of a high and a low nibble: `(zext_8(h) << 4) or zext_8(l)` (R66). -/
def joinNibbles (h l : Nibble) : Byte := (zextNibble h <<< 4) ||| zextNibble l

/-- The nibble HENC reads, `A[3:0]`; `A[7:4]` is ignored (R72). -/
def nibbleOperand (a : Byte) : Nibble := lowNibble a

/-- `Par(v)`: the exclusive or of the eight bits of `v`, one bit (R130). -/
def par (v : Byte) : Bool :=
  v.getLsbD 7 ^^ v.getLsbD 6 ^^ v.getLsbD 5 ^^ v.getLsbD 4 ^^ v.getLsbD 3 ^^ v.getLsbD 2 ^^ v.getLsbD 1 ^^ v.getLsbD 0

end Sys2Proof.Machine
end

