-- ==== Sys2Proof/Machine/Flags.lean ====
section
/-! DEFINITION. The XOR checksum and the block's one flag, `FAIL` (spec/40_encode_path.md R91;
spec/41_decode_path.md R111; spec/10_state.md R26). -/

namespace Sys2Proof.Machine

/-- `Csum(t, d)`, bitwise, no carry (R91). -/
def csum (t d : Byte) : Byte := t ^^^ d

/-- `Chk(b0, b1, b2)`: `true` (1) on mismatch, `false` (0) on match (R111). It is the value of `FAIL`. -/
def chk (b0 b1 b2 : Byte) : Bool := csum b0 b1 != b2

end Sys2Proof.Machine
end

