-- ==== Sys2Proof/Machine/Hamming.lean ====
section
/-! DEFINITION. The Hamming(7,4) code: the encoder, the check masks, the syndrome, the correction table and the
single-codeword decoder (spec/30_encoding.md R60 to R64; spec/40_encode_path.md R92;
spec/42_codeword_correction.md R131 to R134). The layout and the parity subsets are the spec's decisions D7 to D10
(log 6). -/

namespace Sys2Proof.Machine

/-- `HEnc(n)`: bit 7 zero, bits 6, 5, 4 the parity bits P1, P2, P3, bits 3:0 the nibble (R92, R60 to R62). -/
def hEnc (n : Nibble) : Byte :=
  let p1 := n.getLsbD 0 ^^ n.getLsbD 1 ^^ n.getLsbD 3
  let p2 := n.getLsbD 0 ^^ n.getLsbD 2 ^^ n.getLsbD 3
  let p3 := n.getLsbD 1 ^^ n.getLsbD 2 ^^ n.getLsbD 3
  0b0#1 ++ BitVec.ofBool p1 ++ BitVec.ofBool p2 ++ BitVec.ofBool p3 ++ n

/-- The three parity checks C1, C2, C3 (R63). -/
inductive Check where
  /-- C1, the check of P1. -/
  | c1
  /-- C2, the check of P2. -/
  | c2
  /-- C3, the check of P3. -/
  | c3
deriving DecidableEq, Repr

/-- The constant table `CHKMASK[1..3]`, the rows of the parity-check matrix (R21, R63). -/
def chkMask : Check → Byte
  | .c1 => 0x4B#8
  | .c2 => 0x2D#8
  | .c3 => 0x1E#8

/-- One parity check of a codeword, reduced to one bit before it is used (R130, R184). -/
def checkBit (k : Check) (cw : Byte) : Bool := par (cw &&& chkMask k)

/-- The 3-bit number with C3 as its most significant and C1 as its least significant bit (R131). -/
def syndromeOf (c3 c2 c1 : Bool) : Syndrome := BitVec.ofBool c3 ++ BitVec.ofBool c2 ++ BitVec.ofBool c1

/-- `Syn(cw)`, the syndrome of a received codeword (R131). -/
def syn (cw : Byte) : Syndrome := syndromeOf (checkBit .c3 cw) (checkBit .c2 cw) (checkBit .c1 cw)

/-- The column of codeword bit `k` in the parity-check matrix, read as the number C3, C2, C1 (R63). -/
def column (k : Nat) : Syndrome :=
  syndromeOf ((chkMask .c3).getLsbD k) ((chkMask .c2).getLsbD k) ((chkMask .c1).getLsbD k)

/-- The byte `1 << k`. -/
def bitMask (k : Nat) : Byte := 1#8 <<< k

/-- `COR[s]`, by construction from the parity-check matrix: zero for syndrome 0, else the mask of the one codeword bit
among 6 to 0 whose column is `s` (R132, R185; log 8). -/
def cor (s : Syndrome) : Byte :=
  if s = 0#3 then 0#8
  else
    match (List.range 7).find? (fun k => column k == s) with
    | some k => bitMask k
    | none => 0#8

/-- `Cor(cw)`: the corrected codeword; bit 7 passes through (R133). -/
def correct (cw : Byte) : Byte := cw ^^^ cor (syn cw)

/-- `HDec(cw)`: bits 3:0 of the corrected codeword (R134). -/
def hDec (cw : Byte) : Nibble := lowNibble (correct cw)

/-- The constant table `COR[0..7]` as R21 and R132 list its values. -/
def corTable : Vector Byte 8 := #v[0x00, 0x40, 0x20, 0x01, 0x10, 0x02, 0x04, 0x08]

/-- The constant table `ENC[0..15]`, the 16 valid codewords, as R21 and R64 list them. -/
def encTable : Vector Byte 16 :=
  #v[0x00, 0x61, 0x52, 0x33, 0x34, 0x55, 0x66, 0x07, 0x78, 0x19, 0x2A, 0x4B, 0x4C, 0x2D, 0x1E, 0x7F]

/-- A byte is a valid codeword exactly when it is in the table `ENC` (R64). -/
def validCodeword (b : Byte) : Bool := encTable.toList.contains b

end Sys2Proof.Machine
end

