-- ==== Sys2Proof/Machine/State.lean ====
section
/-! DEFINITION. The machine's state (the ports of the block and its block length), its fault and refusal reasons, and
reset (spec/10_state.md R20 to R31; spec/70_reset_and_hazards.md R180). -/

namespace Sys2Proof.Machine

/-- Why the machine could stop with a fault. It has no constructor: "no operation has a fault, stuck or refusal
outcome: every request has exactly one response" (spec/60_exceptions.md R150; log 13). -/
inductive Fault where
deriving DecidableEq, Repr

/-- Why the machine could refuse an instruction (log 13). -/
inductive Refusal where
  /-- The instruction of that mnemonic has no meaning yet. Raised by nothing in this model: every operation has its
  meaning. It would be safe, since the machine stops. -/
  | notModelled (mnemonic : String)
deriving DecidableEq, Repr

/-- The outputs of one transaction of a block with RawBlocks of `n` bytes (R23). -/
structure Response (n : BlockLength) where
  /-- `RES`, the first byte result. -/
  res : Byte
  /-- `RES2`, the second byte result. -/
  res2 : Byte
  /-- `FAIL`, one bit: `true` is 1, checksum mismatch (R26). -/
  fail : Bool
  /-- `WOUT[0 .. 2N-1]`; index 0 is sent first (R43, R44). -/
  wout : Vector Byte (2 * n.val)
deriving DecidableEq, Repr

/-- The block as the host meets it: its build-time length, the request on its input ports, and the response of the
transaction just served. The block remembers nothing else (R20). -/
structure State where
  /-- `N`, fixed at build time, changed by no operation (R6, R27; log 1). -/
  blockLength : BlockLength
  /-- The input port `CMD`, driven by the host (R22, R70). -/
  cmd : CmdWord
  /-- The input port `WIN[0 .. 2N-1]`, driven by the host; index 0 is the first byte received (R22, R43, R44). -/
  win : Vector Byte (2 * blockLength.val)
  /-- The response of the transaction just served. Outside a transaction the outputs "have no specified value and a
  model must not read them" (R31): then there is none (log 3). -/
  response : Option (Response blockLength)
deriving DecidableEq, Repr

/-- Right after reset: no transaction has been served (R31, R180). `N` is the reference value (log 1) and the input
ports, which the spec leaves to the host, carry zeros (DESIGN CHOICE, unsafe, log 2). -/
def State.reset : State where
  blockLength := Config.referenceLength
  cmd := 0#27
  win := Vector.replicate _ 0#8
  response := none

end Sys2Proof.Machine
end

