-- ==== Sys2Proof/Machine/Ops.lean ====
section
/-! DEFINITION. The shared operations: the RawBlock and wire-block functions of the two paths, and the one way a
meaning answers (spec/20_memory.md R41, R42; spec/40_encode_path.md R93 to R95; spec/41_decode_path.md R110, R112;
spec/30_encoding.md R72). There is no exception entry or return to define (spec/60_exceptions.md R150, R157, R158). -/

namespace Sys2Proof.Machine

/-- `PAD`, the value of every padding byte at encode (R6, R94; the spec's decision D6, log 7). -/
def padByte : Byte := 0x00#8

/-- `ByteEnc(b)`: the codewords of the high and of the low nibble, in that order (R93). -/
def byteEnc (b : Byte) : Byte × Byte := (hEnc (highNibble b), hEnc (lowNibble b))

/-- Byte `i` of the RawBlock of a type and data pair: type, data, checksum, then padding (R41, R94). -/
def rawByte (t d : Byte) : Nat → Byte
  | 0 => t
  | 1 => d
  | 2 => csum t d
  | _ + 3 => padByte

/-- `MkRaw(t, d)` (R94). -/
def mkRaw (n : BlockLength) (t d : Byte) : Vector Byte n.val := Vector.ofFn fun i => rawByte t d i.val

/-- The wire block of a RawBlock: index `2i` carries the high and `2i + 1` the low nibble of byte `i` (R42, R95). -/
def expandRaw (n : BlockLength) (raw : Vector Byte n.val) : Vector Byte (2 * n.val) :=
  Vector.ofFn fun j =>
    let pair := byteEnc (raw[j.val / 2]'(by have := j.isLt; omega))
    if j.val % 2 = 0 then pair.1 else pair.2

/-- `Encode(t, d)` (R95). -/
def encodeBlock (n : BlockLength) (t d : Byte) : Vector Byte (2 * n.val) := expandRaw n (mkRaw n t d)

/-- `ByteDec(ch, cl)`: the two codewords decoded independently and recombined (R110). -/
def byteDec (ch cl : Byte) : Byte := joinNibbles (hDec ch) (hDec cl)

/-- The RawBlock rebuilt from a received wire block (R112). -/
def rebuildRaw (n : BlockLength) (w : Vector Byte (2 * n.val)) : Vector Byte n.val :=
  Vector.ofFn fun i =>
    byteDec (w[2 * i.val]'(by have := i.isLt; omega)) (w[2 * i.val + 1]'(by have := i.isLt; omega))

/-- What decoding a block yields: the pair, or failure with no value (R112; spec/92_eei_decisions.md D13, log 11). -/
inductive Decoded where
  /-- The checksum matched: type and data. -/
  | ok (t d : Byte)
  /-- The checksum did not match. -/
  | fail
deriving DecidableEq, Repr

/-- `Decode(W)`: only RawBlock bytes 0, 1 and 2 take part; the padding is rebuilt and discarded (R112, R116). -/
def decodeBlock (n : BlockLength) (w : Vector Byte (2 * n.val)) : Decoded :=
  let raw := rebuildRaw n w
  let b0 := raw[0]'(by have := n.property; omega)
  let b1 := raw[1]'(by have := n.property; omega)
  let b2 := raw[2]'(by have := n.property; omega)
  if chk b0 b1 b2 then .fail else .ok b0 b1

/-- Every output zero: what an operation's unnamed outputs are (R72; the spec's decision D4, log 17). -/
def Response.zero (n : BlockLength) : Response n where
  res := 0x00#8
  res2 := 0x00#8
  fail := false
  wout := Vector.replicate _ 0x00#8

/-- The outputs DECODE drives for a decoded block: on failure the data outputs are zero (R112). -/
def Decoded.toResponse (n : BlockLength) : Decoded → Response n
  | .ok t d => { Response.zero n with fail := false, res := t, res2 := d }
  | .fail => { Response.zero n with fail := true, res := 0x00#8, res2 := 0x00#8 }

/-- The state after a transaction answered `r`: the outputs show `r`, the inputs are the host's and stay (R22, R23). -/
def State.respond (s : State) (r : Response s.blockLength) : State := { s with response := some r }

/-- How every meaning ends: one response, never a fault or a refusal (R150). -/
def answer (s : State) (r : Response s.blockLength) : Host.Outcome State Fault Refusal := .next (s.respond r)

/-- The operation the request selects: nothing is fetched, the command word stands on `CMD` (R25, R70). -/
def selected (s : State) : Instr := decodeWord s.cmd

/-- A state from untyped numbers and bytes, where they pass the checks of `WellFormed`: a short or long wire block, a
block length below 3 or a wider command word gives none (R44, R77; spec/93_implementation_defined.md U7). -/
def State.ofPorts (n cmd : Nat) (bytes : List Byte) : Option State :=
  if hn : blockLengthOk n then
    if hw : wireBlockOk n bytes then
      if commandWordOk cmd then
        some
          { blockLength := ⟨n, of_decide_eq_true hn⟩
            cmd := BitVec.ofNat 27 cmd
            win := ⟨bytes.toArray, by simpa using of_decide_eq_true hw⟩
            response := none }
      else none
    else none
  else none

end Sys2Proof.Machine
end

