-- ==== Sys2Proof/Machine/Correction.lean ====
section
/-! DEFINITION. The meanings of single-codeword correction: HSYN, HCOR, HDEC (spec/42_codeword_correction.md R130 to
R136). -/

namespace Sys2Proof.Machine

/-- HSYN: `RES <- zext_8(Syn(A))` (R131). -/
def execHsyn (a _b _c : Byte) (s : State) : Host.Outcome State Fault Refusal :=
  answer s { Response.zero s.blockLength with res := zextSyndrome (syn a) }

/-- HCOR: `RES <- Cor(A)` (R133). -/
def execHcor (a _b _c : Byte) (s : State) : Host.Outcome State Fault Refusal :=
  answer s { Response.zero s.blockLength with res := correct a }

/-- HDEC: `RES <- zext_8(HDec(A))` (R134). -/
def execHdec (a _b _c : Byte) (s : State) : Host.Outcome State Fault Refusal :=
  answer s { Response.zero s.blockLength with res := zextNibble (hDec a) }

end Sys2Proof.Machine
end

