-- ==== Sys2Proof/Machine/DecodePath.lean ====
section
/-! DEFINITION. The meanings of the decode path: CHK and DECODE (spec/41_decode_path.md R110 to R116). -/

namespace Sys2Proof.Machine

/-- CHK: `FAIL <- Chk(A, B, C)` (R111). -/
def execChk (a b c : Byte) (s : State) : Host.Outcome State Fault Refusal :=
  answer s { Response.zero s.blockLength with fail := chk a b c }

/-- DECODE: `FAIL`, `RES` and `RES2` from `Decode(WIN)` (R112). -/
def execDecode (_a _b _c : Byte) (s : State) : Host.Outcome State Fault Refusal :=
  answer s ((decodeBlock s.blockLength s.win).toResponse s.blockLength)

end Sys2Proof.Machine
end

