-- ==== Sys2Proof/Machine/EncodePath.lean ====
section
/-! DEFINITION. The meanings of the encode path: CSUM, HENC, ENCODE (spec/40_encode_path.md R90 to R97). -/

namespace Sys2Proof.Machine

/-- CSUM: `RES <- Csum(A, B)` (R91). -/
def execCsum (a b _c : Byte) (s : State) : Host.Outcome State Fault Refusal :=
  answer s { Response.zero s.blockLength with res := csum a b }

/-- HENC: `RES <- HEnc(A[3:0])` (R92). -/
def execHenc (a _b _c : Byte) (s : State) : Host.Outcome State Fault Refusal :=
  answer s { Response.zero s.blockLength with res := hEnc (nibbleOperand a) }

/-- ENCODE: `WOUT <- Encode(A, B)` (R95). -/
def execEncode (a b _c : Byte) (s : State) : Host.Outcome State Fault Refusal :=
  answer s { Response.zero s.blockLength with wout := encodeBlock s.blockLength a b }

end Sys2Proof.Machine
end

