-- ==== Sys2Proof/Machine/Dispatch.lean ====
section
/-! DEFINITION. The dispatch of an operation to its meaning (spec/30_encoding.md R71). -/

namespace Sys2Proof.Machine

def exec (i : Instr) (s : State) : Host.Outcome State Fault Refusal :=
  match i with
  | .csum a b c => Sys2Proof.Machine.execCsum a b c s
  | .henc a b c => Sys2Proof.Machine.execHenc a b c s
  | .encode a b c => Sys2Proof.Machine.execEncode a b c s
  | .chk a b c => Sys2Proof.Machine.execChk a b c s
  | .decode a b c => Sys2Proof.Machine.execDecode a b c s
  | .hsyn a b c => Sys2Proof.Machine.execHsyn a b c s
  | .hcor a b c => Sys2Proof.Machine.execHcor a b c s
  | .hdec a b c => Sys2Proof.Machine.execHdec a b c s

end Sys2Proof.Machine
end

