-- ==== Sys2Proof/Machine/Step.lean ====
section
/-! DEFINITION. One step: the block serves the transaction on its input ports (spec/00_scope.md R7, R8;
spec/10_state.md R25). -/

namespace Sys2Proof.Machine

/-- One transaction: the operation selected by `CMD` is performed on the request and yields its response (R7, R8). -/
def step (s : State) : Host.Outcome State Fault Refusal := exec (selected s) s

/-- The host drives the instruction's bits on `CMD`, where the next step reads its operation. DESIGN CHOICE (log 5): a
response that stands there is kept until that step replaces it. The spec gives the outputs no value between transactions
(R31), and no operation reads them. -/
def State.withFetchWord (s : State) (nbits w : Nat) : State := { s with cmd := commandOfBits nbits w }

end Sys2Proof.Machine
end

