-- ==== Sys2Proof/Machine/Session.lean ====
section
/-! DEFINITION. The host's side of a transaction: driving a request onto the ports, and a series of transactions in
issue order (spec/20_memory.md R50, R52; spec/10_state.md R22; log 12). -/

namespace Sys2Proof.Machine

/-- A request as the host gives it: the command word, and the byte stream from which `WIN[0 .. 2N-1]` is taken, byte `j`
for `WIN[j]` (R22, R43). It is no part of `State`. -/
structure Request where
  /-- The command word to drive on `CMD`. -/
  cmd : CmdWord
  /-- Byte `j` of the stream, for `WIN[j]`. -/
  bytes : Nat → Byte

/-- The host drives a request. The response of the transaction before is no longer there: outputs exist only as the
response of a request (R31). -/
def State.drive (s : State) (r : Request) : State where
  blockLength := s.blockLength
  cmd := r.cmd
  win := Vector.ofFn fun j => r.bytes j.val
  response := none

/-- The state after a driven request was answered with `r`: the request on the inputs, `r` on the outputs. -/
def State.served (s : State) (q : Request) (r : Response s.blockLength) : State where
  blockLength := s.blockLength
  cmd := q.cmd
  win := Vector.ofFn fun j => q.bytes j.val
  response := some r

/-- One transaction: the host drives a request and the block serves it (R7). -/
def transact (s : State) (r : Request) : Host.Outcome State Fault Refusal := step (s.drive r)

/-- Transactions issued one at a time, each complete before the next begins; the states after each, in issue order
(R50). -/
def session (s : State) : List Request → Host.Outcome (List State) Fault Refusal
  | [] => .next []
  | r :: rs =>
    match transact s r with
    | .fault f => .fault f
    | .refused x => .refused x
    | .next t =>
      match session t rs with
      | .fault f => .fault f
      | .refused x => .refused x
      | .next ts => .next (t :: ts)

end Sys2Proof.Machine
end

