-- ==== Sys2Proof/Safety.lean ====
section
/-! DEFINITION. The terms claims use: the shape of a lawful response, damage to a codeword, and the spec's labels for
error causes (spec/60_exceptions.md R151 to R153, R157; spec/41_decode_path.md R114,
R115). None of it is part of the block. -/

namespace Sys2Proof.Machine

/-- The lawful shape of a response: with `FAIL = 1` all other outputs are zero (R157), and every byte of `WOUT` is a
valid codeword, so bit 7 is clear (R64, R73). -/
def Response.Lawful {n : BlockLength} (r : Response n) : Prop :=
  (r.fail = true → r.res = 0#8 ∧ r.res2 = 0#8 ∧ r.wout = Vector.replicate _ 0#8) ∧
  ∀ b ∈ r.wout.toList, validCodeword b = true

/-- The invariant every step keeps: a response that is present is lawful. -/
def State.Inv (s : State) : Prop := ∀ r, s.response = some r → r.Lawful

/-- How many of the 7 meaningful bits (6 to 0) are set in a byte: the flips an error mask makes that count (R73). -/
def meaningfulFlips (e : Byte) : Nat := ((List.range 7).filter fun k => e.getLsbD k).length

/-- The spec's labels for error causes; the block outputs only `FAIL` (R151; log 14). -/
inductive Cause where
  /-- 0: no condition. -/
  | none
  /-- 1: a bit was corrected in a codeword; nothing is reported. -/
  | correctedBit
  /-- 2: the checksum did not match after decode; `FAIL = 1`. -/
  | uncorrectable
  /-- 3: fewer than one wire block buffered; the host's, never met by the block (R154). -/
  | insufficientData
deriving DecidableEq, Repr

/-- The cause number of R151. -/
def Cause.label : Cause → Nat
  | .none => 0
  | .correctedBit => 1
  | .uncorrectable => 2
  | .insufficientData => 3

/-- The cause met in one codeword: a nonzero syndrome has one bit corrected (R152). -/
def codewordCause (cw : Byte) : Cause := if syn cw = 0#3 then .none else .correctedBit

/-- The cause a response reports: `FAIL` is raised for cause 2 and nothing else (R151, R153). -/
def Response.cause {n : BlockLength} (r : Response n) : Cause := if r.fail then .uncorrectable else .none

end Sys2Proof.Machine
end

