-- ==== Sys2Proof/Certificates/Slice0/Obligations.lean ====
section
/-! DEFINITION. The statements for the provers, from the numbered rules of spec/. Where a clause rests on a choice or an
inference the spec marks as its own (`[decision: ...]`, `[derived: ...]`) the docstring says which. Every operation's
own statement concludes that `exec` answers a next state, for every state and every operand, and that nothing but the
response changes (`State.respond`): that the ports keep the host's request is read from R22 (log 4), that the response
stands in the state after its transaction from R23 and R31 (log 3). -/

open Sys2Proof Sys2Proof.Machine

/-! ### Encoding -/

/-- Decoding an encoded instruction gives it back, through the 27-bit word and through the table's number with any width
that holds it. Every instruction is well formed (R75). R70 and R71 are the spec's decisions D2 and D3 (log 15); that
the ignored fields are kept is log 18. -/
def Obligations.DecodeOfEncodeIsIdentity : Prop :=
  ∀ i : Instr, decodeWord (encode i) = i ∧
    ∀ nbits : Nat, 27 ≤ nbits → decodeTableWord nbits (encode i).toNat = some i

/-- Every 27-bit word is the encoding of the instruction it decodes to (R75; the spec's decision D3, log 15). -/
def Obligations.EncodeOfDecodeIsIdentity : Prop := ∀ w : CmdWord, encode (decodeWord w) = w

/-- The fields of the command word, in arithmetic: `A` the lowest byte, then `B`, then `C`, then the 3-bit `OP` whose
eight values select the eight operations (R70, R71; the spec's decisions D2 and D3, log 15). -/
def Obligations.CommandFieldsSelectOperation : Prop :=
  ∀ w : CmdWord,
    let a : Byte := BitVec.ofNat 8 w.toNat
    let b : Byte := BitVec.ofNat 8 (w.toNat / 2 ^ 8)
    let c : Byte := BitVec.ofNat 8 (w.toNat / 2 ^ 16)
    let op := w.toNat / 2 ^ 24
    op < 8 ∧
    (op = 0 → decodeWord w = .csum a b c) ∧ (op = 1 → decodeWord w = .henc a b c) ∧
    (op = 2 → decodeWord w = .encode a b c) ∧ (op = 3 → decodeWord w = .chk a b c) ∧
    (op = 4 → decodeWord w = .decode a b c) ∧ (op = 5 → decodeWord w = .hsyn a b c) ∧
    (op = 6 → decodeWord w = .hcor a b c) ∧ (op = 7 → decodeWord w = .hdec a b c)

/-- A number wider than 27 bits is no command word and is refused by name; any other is decoded (R75, R77). The bits
above the 27, which the spec does not have, are the model's convention (log 5). -/
def Obligations.OnlyWiderWordsAreRefused : Prop :=
  ∀ nbits w : Nat,
    (decodeTableWord nbits w = none ↔ 2 ^ 27 ≤ w % 2 ^ nbits) ∧
    (2 ^ 27 ≤ w → decodeCommand w = .error .notACommandWord) ∧
    (w < 2 ^ 27 → decodeCommand w = .ok (decodeWord (BitVec.ofNat 27 w)))

/-- One word of each operation, from the `CMD` columns of spec/95_test_vectors.md sections 2 and 3. -/
def Obligations.VectorWordsDecode : Prop :=
  decodeWord 0x0003CA5#27 = .csum 0xA5 0x3C 0x00 ∧ decodeWord 0x10000F5#27 = .henc 0xF5 0x00 0x00 ∧
  decodeWord 0x2000A05#27 = .encode 0x05 0x0A 0x00 ∧ decodeWord 0x38F0A05#27 = .chk 0x05 0x0A 0x8F ∧
  decodeWord 0x4000000#27 = .decode 0x00 0x00 0x00 ∧ decodeWord 0x5000054#27 = .hsyn 0x54 0x00 0x00 ∧
  decodeWord 0x60000D4#27 = .hcor 0xD4 0x00 0x00 ∧ decodeWord 0x7000056#27 = .hdec 0x56 0x00 0x00

/-! ### The step -/

/-- A step is exactly the execution of the operation that `CMD` selects, also for a word placed by `withFetchWord`; the
step adds nothing around it (R7, R25). -/
def Obligations.StepRunsSelectedOperation : Prop :=
  (∀ (s : State) (i : Instr), decodeWord s.cmd = i → step s = exec i s) ∧
  ∀ (s : State) (i : Instr) (nbits : Nat), 27 ≤ nbits →
    step (s.withFetchWord nbits (encode i).toNat) = exec i (s.withFetchWord nbits (encode i).toNat)

/-- R150: every request has exactly one response, never a fault or a refusal, and `FAIL = 1` comes from CHK (`OP` 3) and
DECODE (`OP` 4) only. -/
def Obligations.EveryRequestHasOneResponse : Prop :=
  ∀ s : State, ∃ r : Response s.blockLength,
    step s = .next (s.respond r) ∧ (r.fail = true → s.cmd.toNat / 2 ^ 24 = 3 ∨ s.cmd.toNat / 2 ^ 24 = 4)

/-- R20: the response is a function of the request alone, and nothing of an earlier transaction remains: one response
answers the request whatever response stood there before, and only the response changes. -/
def Obligations.ResponseDependsOnRequestAlone : Prop :=
  ∀ s : State, ∃ r : Response s.blockLength, ∀ old : Option (Response s.blockLength),
    step { s with response := old } = .next { s with response := some r }

/-- The frame of all eight operations: the block length and the input ports are unchanged, and only the response is new
(R22 "read-only to the block"; R27). -/
def Obligations.OperationsLeaveInputsUnchanged : Prop :=
  ∀ (i : Instr) (s t : State), exec i s = .next t →
    t.blockLength = s.blockLength ∧ t.cmd = s.cmd ∧ t.win.toList = s.win.toList ∧ ∃ r, t = s.respond r

/-- R72: the fields and the input port an operation does not list are ignored (HENC ignores `A[7:4]`), and every output
it does not list is zero. The spec marks the rule as its decision D4 (log 17). -/
def Obligations.UnlistedFieldsIgnoredUnnamedOutputsZero : Prop :=
  ∀ (s : State) (w : Vector Byte (2 * s.blockLength.val)) (a b c a' b' c' : Byte),
    let s' : State := { s with win := w }
    let zeros : Vector Byte (2 * s.blockLength.val) := Vector.replicate _ 0x00#8
    let both (i i' : Instr) (r : Response s.blockLength) : Prop :=
      exec i s = .next { s with response := some r } ∧ exec i' s' = .next { s' with response := some r }
    (∃ r, both (.csum a b c) (.csum a b c') r ∧ r.res2 = 0 ∧ r.fail = false ∧ r.wout = zeros) ∧
    (∃ r, (a'.extractLsb' 0 4 = a.extractLsb' 0 4 → both (.henc a b c) (.henc a' b' c') r) ∧
      exec (.henc a b c) s = .next { s with response := some r } ∧ r.res2 = 0 ∧ r.fail = false ∧ r.wout = zeros) ∧
    (∃ r, both (.encode a b c) (.encode a b c') r ∧ r.res = 0 ∧ r.res2 = 0 ∧ r.fail = false) ∧
    (∃ r, both (.chk a b c) (.chk a b c) r ∧ r.res = 0 ∧ r.res2 = 0 ∧ r.wout = zeros) ∧
    (∃ r, exec (.decode a b c) s = .next { s with response := some r } ∧
      exec (.decode a' b' c') s = .next { s with response := some r } ∧ r.wout = zeros) ∧
    (∃ r, both (.hsyn a b c) (.hsyn a b' c') r ∧ r.res2 = 0 ∧ r.fail = false ∧ r.wout = zeros) ∧
    (∃ r, both (.hcor a b c) (.hcor a b' c') r ∧ r.res2 = 0 ∧ r.fail = false ∧ r.wout = zeros) ∧
    (∃ r, both (.hdec a b c) (.hdec a b' c') r ∧ r.res2 = 0 ∧ r.fail = false ∧ r.wout = zeros)

/-! ### The encode path -/

/-- R91, whole: CSUM answers `RES = A xor B` and `FAIL = 0` for every state and operands, its encoding, and its corner
cases. -/
def Obligations.CsumAnswersXorChecksum : Prop :=
  (∀ (s : State) (a b c : Byte), ∃ r : Response s.blockLength,
    exec (.csum a b c) s = .next (s.respond r) ∧ r.res = a ^^^ b ∧ r.res = csum a b ∧ r.fail = false) ∧
  (∀ a b c : Byte, decodeWord (commandWord 0b000#3 c b a) = .csum a b c) ∧
  (∀ t d : Byte, csum t t = 0x00#8 ∧ csum t 0x00#8 = t ∧ csum t d = csum d t ∧
    (∀ k, (csum t d).getLsbD k = (t.getLsbD k ^^ d.getLsbD k)) ∧
    highNibble (csum t d) = highNibble t ^^^ highNibble d ∧ lowNibble (csum t d) = lowNibble t ^^^ lowNibble d) ∧
  csum 0xFF#8 0x00#8 = 0xFF#8 ∧ csum 0x05#8 0x0A#8 = 0x0F#8

/-- R92, whole: HENC answers the codeword of `A[3:0]`, bit by bit, with `FAIL = 0`, its encoding, and its corner cases.
The bit positions and parity subsets are the spec's decisions D7 and D8 (log 6). -/
def Obligations.HencAnswersCodeword : Prop :=
  (∀ (s : State) (a b c : Byte), ∃ r : Response s.blockLength,
    exec (.henc a b c) s = .next (s.respond r) ∧ r.fail = false ∧
    r.res.getLsbD 7 = false ∧
    r.res.getLsbD 6 = (a.getLsbD 0 ^^ a.getLsbD 1 ^^ a.getLsbD 3) ∧
    r.res.getLsbD 5 = (a.getLsbD 0 ^^ a.getLsbD 2 ^^ a.getLsbD 3) ∧
    r.res.getLsbD 4 = (a.getLsbD 1 ^^ a.getLsbD 2 ^^ a.getLsbD 3) ∧
    r.res.getLsbD 3 = a.getLsbD 3 ∧ r.res.getLsbD 2 = a.getLsbD 2 ∧
    r.res.getLsbD 1 = a.getLsbD 1 ∧ r.res.getLsbD 0 = a.getLsbD 0 ∧
    r.res = hEnc (a.extractLsb' 0 4)) ∧
  (∀ a b c : Byte, decodeWord (commandWord 0b001#3 c b a) = .henc a b c) ∧
  (∀ m n : Nibble, (hEnc m = hEnc n → m = n) ∧ hEnc (m ^^^ n) = hEnc m ^^^ hEnc n ∧
    (hEnc n).getLsbD 7 = false ∧ (hEnc n).extractLsb' 0 4 = n ∧ hEnc n = encTable[n.toNat]) ∧
  (∀ (s : State) (b c b' c' : Byte), ∃ r : Response s.blockLength,
    exec (.henc 0xF5 b c) s = .next (s.respond r) ∧ exec (.henc 0x05 b' c') s = .next (s.respond r)) ∧
  hEnc 0x0#4 = 0x00#8 ∧ hEnc 0xF#4 = 0x7F#8 ∧ hEnc 0x5#4 = 0x55#8

/-- R95, whole: ENCODE answers the wire block of the RawBlock type, data, checksum, padding, high nibble first, with
the other outputs zero; its encoding and its corner cases, for every block length. The padding value is the spec's
decision D6 (log 7). -/
def Obligations.EncodeAnswersWireBlock : Prop :=
  (∀ (s : State) (a b c : Byte), ∃ r : Response s.blockLength,
    exec (.encode a b c) s = .next (s.respond r) ∧ r.fail = false ∧ r.res = 0x00#8 ∧ r.res2 = 0x00#8 ∧
    (∀ (i : Nat) (h : i < s.blockLength.val),
      let x : Byte := if i = 0 then a else if i = 1 then b else if i = 2 then a ^^^ b else 0x00#8
      r.wout[2 * i]'(by omega) = hEnc (x.extractLsb' 4 4) ∧
      r.wout[2 * i + 1]'(by omega) = hEnc (x.extractLsb' 0 4)) ∧
    (∀ (j : Nat) (h : j < 2 * s.blockLength.val), 6 ≤ j → r.wout[j] = 0x00#8) ∧
    (∀ x ∈ r.wout.toList, x.getLsbD 7 = false ∧ validCodeword x = true)) ∧
  (∀ a b c : Byte, decodeWord (commandWord 0b010#3 c b a) = .encode a b c) ∧
  (∀ n : BlockLength, (encodeBlock n 0x00#8 0x00#8).toList = List.replicate (2 * n.val) 0x00#8 ∧
    (encodeBlock n 0xFF#8 0xFF#8).toList =
      [0x7F#8, 0x7F#8, 0x7F#8, 0x7F#8, 0x00#8, 0x00#8] ++ List.replicate (2 * n.val - 6) 0x00#8) ∧
  (mkRaw ⟨4, by decide⟩ 0x05#8 0x0A#8).toList = [0x05#8, 0x0A#8, 0x0F#8, 0x00#8] ∧
  (encodeBlock ⟨4, by decide⟩ 0x05#8 0x0A#8).toList =
    [0x00#8, 0x55#8, 0x00#8, 0x2A#8, 0x00#8, 0x7F#8, 0x00#8, 0x00#8]

/-- R96, whole: ENCODE answers exactly `2N` bytes, the same again when it is repeated, always, and changes nothing but
the response. -/
def Obligations.EncodeIsTotalPureAndRepeatable : Prop :=
  ∀ (s : State) (a b c : Byte), ∃ r : Response s.blockLength,
    r.wout.toList.length = 2 * s.blockLength.val ∧
    exec (.encode a b c) s = .next { s with response := some r } ∧
    exec (.encode a b c) { s with response := some r } = .next { s with response := some r }

/-- R97, which the spec marks as derived: the wire block is linear over `xor`; its first two codewords depend on the type
only, the next two on the data only, the next two on `type xor data` only, and the rest are constant. -/
def Obligations.WireBlockIsLinear : Prop :=
  ∀ (n : BlockLength) (t1 d1 t2 d2 : Byte) (j : Nat) (h : j < 2 * n.val),
    (encodeBlock n (t1 ^^^ t2) (d1 ^^^ d2))[j] = (encodeBlock n t1 d1)[j] ^^^ (encodeBlock n t2 d2)[j] ∧
    (j < 2 → (encodeBlock n t1 d1)[j] = (encodeBlock n t1 d2)[j]) ∧
    (2 ≤ j → j < 4 → (encodeBlock n t1 d1)[j] = (encodeBlock n t2 d1)[j]) ∧
    (4 ≤ j → j < 6 → t1 ^^^ d1 = t2 ^^^ d2 → (encodeBlock n t1 d1)[j] = (encodeBlock n t2 d2)[j]) ∧
    (6 ≤ j → (encodeBlock n t1 d1)[j] = (encodeBlock n t2 d2)[j])

/-- R97, which the spec marks as derived: two different messages give wire blocks that differ in at least two codewords,
and each codeword that differs does so in at least 3 meaningful bits. -/
def Obligations.DifferentMessagesDifferInTwoCodewords : Prop :=
  ∀ (n : BlockLength) (t d t' d' : Byte), (t, d) ≠ (t', d') →
    (∃ (j k : Nat) (hj : j < 2 * n.val) (hk : k < 2 * n.val), j < k ∧
      (encodeBlock n t d)[j] ≠ (encodeBlock n t' d')[j] ∧ (encodeBlock n t d)[k] ≠ (encodeBlock n t' d')[k]) ∧
    ∀ (j : Nat) (h : j < 2 * n.val), (encodeBlock n t d)[j] ≠ (encodeBlock n t' d')[j] →
      3 ≤ meaningfulFlips ((encodeBlock n t d)[j] ^^^ (encodeBlock n t' d')[j])

/-! ### The decode path -/

/-- R111: CHK answers `FAIL = 1` exactly when `A xor B` differs from `C`, with `RES` and `RES2` zero; its encoding and
corner cases. The symmetry is the spec's own inference ("[derived: xor is commutative and associative]"). -/
def Obligations.ChkAnswersMismatch : Prop :=
  (∀ (s : State) (a b c : Byte), ∃ r : Response s.blockLength,
    exec (.chk a b c) s = .next (s.respond r) ∧ (r.fail = true ↔ a ^^^ b ≠ c) ∧ r.fail = chk a b c ∧
    r.res = 0x00#8 ∧ r.res2 = 0x00#8) ∧
  (∀ a b c : Byte, decodeWord (commandWord 0b011#3 c b a) = .chk a b c) ∧
  (∀ a b c e : Byte, (chk a b c = false ↔ a ^^^ b ^^^ c = 0x00#8) ∧ chk a b c = chk b a c ∧ chk a b c = chk a c b ∧
    (chk a b c = false → e ≠ 0x00#8 →
      chk (a ^^^ e) b c = true ∧ chk a (b ^^^ e) c = true ∧ chk a b (c ^^^ e) = true) ∧
    (chk a b c = false →
      chk (a ^^^ e) (b ^^^ e) c = false ∧ chk (a ^^^ e) b (c ^^^ e) = false ∧ chk a (b ^^^ e) (c ^^^ e) = false) ∧
    chk a a 0x00#8 = false) ∧
  (∀ (a b : Byte) (k : Nat), k < 8 → chk a b (a ^^^ b ^^^ bitMask k) = true) ∧
  chk 0x05#8 0x0A#8 0x0F#8 = false ∧ chk 0x02#8 0x0A#8 0x0F#8 = true

/-- R112: what DECODE answers, for every state: the two bytes rebuilt from codewords 0 to 3 when their `xor` is the byte
rebuilt from codewords 4 and 5, and otherwise `FAIL = 1` with zeros. The zeros on failure and the ignored padding are
the spec's decisions D13 and D14 (log 11, log 10). -/
def Obligations.DecodeAnswersPairOrFailure : Prop :=
  (∀ (s : State) (a b c : Byte),
    have hn : 3 ≤ s.blockLength.val := s.blockLength.property
    let b0 : Byte := byteDec (s.win[0]'(by omega)) (s.win[1]'(by omega))
    let b1 : Byte := byteDec (s.win[2]'(by omega)) (s.win[3]'(by omega))
    let b2 : Byte := byteDec (s.win[4]'(by omega)) (s.win[5]'(by omega))
    let zeros : Vector Byte (2 * s.blockLength.val) := Vector.replicate _ 0x00#8
    (b0 ^^^ b1 = b2 → exec (.decode a b c) s =
      .next (s.respond { res := b0, res2 := b1, fail := false, wout := zeros })) ∧
    (b0 ^^^ b1 ≠ b2 → exec (.decode a b c) s =
      .next (s.respond { res := 0x00#8, res2 := 0x00#8, fail := true, wout := zeros }))) ∧
  ∀ a b c : Byte, decodeWord (commandWord 0b100#3 c b a) = .decode a b c

/-- The corner cases and the example of R112 for blocks of one repeated byte, for every block length: zeros decode to
`ok(0, 0)`, `0x7F` and `0xFF` fail. The last rests on the spec's decision D11 (log 10). -/
def Obligations.ConstantBlocksDecode : Prop :=
  (∀ n : BlockLength,
    decodeBlock n (Vector.replicate _ 0x00#8) = .ok 0x00#8 0x00#8 ∧
    decodeBlock n (Vector.replicate _ 0x7F#8) = .fail ∧ decodeBlock n (Vector.replicate _ 0xFF#8) = .fail) ∧
  decodeBlock ⟨4, by decide⟩ #v[0x00, 0x55, 0x00, 0x2A, 0x00, 0x7F, 0x00, 0x00] = .ok 0x05 0x0A ∧
  decodeBlock ⟨4, by decide⟩ #v[0x00, 0x56, 0x00, 0x2A, 0x00, 0x7F, 0x00, 0x00] = .fail

/-- R110, whole: the two codewords are decoded independently and recombined, and one flipped bit in each of the two
codewords of a byte is corrected. -/
def Obligations.CodewordPairsDecodeIndependently : Prop :=
  (∀ ch cl : Byte, byteDec ch cl = (((hDec ch).setWidth 8) <<< 4) ||| (hDec cl).setWidth 8 ∧
    (byteDec ch cl).extractLsb' 4 4 = hDec ch ∧ (byteDec ch cl).extractLsb' 0 4 = hDec cl) ∧
  (∀ b e1 e2 : Byte, meaningfulFlips e1 ≤ 1 → meaningfulFlips e2 ≤ 1 →
    byteDec (hEnc (b.extractLsb' 4 4) ^^^ e1) (hEnc (b.extractLsb' 0 4) ^^^ e2) = b) ∧
  byteDec 0x00#8 0x2A#8 = 0x0A#8 ∧ byteDec 0x2B#8 0x15#8 = 0xA5#8

/-- R113: decoding an encoded pair gives the pair, for every block length. -/
def Obligations.DecodeOfEncodedPairIsOk : Prop :=
  ∀ (n : BlockLength) (t d : Byte), decodeBlock n (encodeBlock n t d) = .ok t d

/-- Sender and receiver mirror each other (R42, R182): the receiver rebuilds every byte of any RawBlock put on the wire,
so the two ends may use different padding (R181, which the spec marks as derived). -/
def Obligations.RawBlockSurvivesTheWire : Prop :=
  ∀ (n : BlockLength) (raw : Vector Byte n.val), rebuildRaw n (expandRaw n raw) = raw

/-- R112, R116 (the spec's decision D14, log 10): DECODE looks at codewords 0 to 5 only, so damage to the padding
codewords is invisible in its response. -/
def Obligations.PaddingDamageIsInvisible : Prop :=
  ∀ (s : State) (w : Vector Byte (2 * s.blockLength.val)) (a b c : Byte),
    (∀ (j : Nat) (h : j < 2 * s.blockLength.val), j < 6 → w[j] = s.win[j]) →
    ∃ r : Response s.blockLength, exec (.decode a b c) s = .next { s with response := some r } ∧
      exec (.decode a b c) { s with win := w } = .next { s with win := w, response := some r }

/-- R114 from end to end, which the spec marks as derived: a message encoded by one block and decoded by another of the
same length arrives, whatever single meaningful bit (and bit 7) the channel flips in each of the `2N` codewords. How the
host drives a request (`Request`, `transact`, `State.served`) is the model's choice (log 12). -/
def Obligations.MessageSurvivesOneFlipPerCodeword : Prop :=
  ∀ (s s' : State) (t d c a' b' c' : Byte) (e : Nat → Byte),
    s'.blockLength = s.blockLength →
    (∀ j, j < 2 * s.blockLength.val → meaningfulFlips (e j) ≤ 1) →
    ∃ r : Response s.blockLength, exec (.encode t d c) s = .next (s.respond r) ∧
      let q : Request :=
        { cmd := encode (.decode a' b' c'), bytes := fun j => r.wout.toList.getD j 0x00#8 ^^^ e j }
      ∃ r' : Response s'.blockLength, transact s' q = .next (s'.served q r') ∧
        r'.fail = false ∧ r'.res = t ∧ r'.res2 = d

/-- R115, which the spec marks as derived: with `e0`, `e1`, `e2` the differences between the rebuilt and the sent bytes,
DECODE fails exactly when their `xor` is not zero, and otherwise returns the damaged bytes. -/
def Obligations.DecodeFailsExactlyOnResidualDifference : Prop :=
  ∀ (n : BlockLength) (t d : Byte) (w : Vector Byte (2 * n.val)),
    have hn : 3 ≤ n.val := n.property
    let e0 : Byte := byteDec (w[0]'(by omega)) (w[1]'(by omega)) ^^^ t
    let e1 : Byte := byteDec (w[2]'(by omega)) (w[3]'(by omega)) ^^^ d
    let e2 : Byte := byteDec (w[4]'(by omega)) (w[5]'(by omega)) ^^^ (t ^^^ d)
    (decodeBlock n w = .fail ↔ e0 ^^^ e1 ^^^ e2 ≠ 0x00#8) ∧
    (e0 ^^^ e1 ^^^ e2 = 0x00#8 → decodeBlock n w = .ok (t ^^^ e0) (d ^^^ e1))

/-- R115, which the spec marks as derived: two or more flipped meaningful bits in one codeword of `W[0 .. 5]`, every
other codeword as sent, always make DECODE fail. -/
def Obligations.DamagedCodewordAlwaysFails : Prop :=
  ∀ (n : BlockLength) (t d e : Byte) (j : Nat) (h : j < 2 * n.val), j < 6 → 2 ≤ meaningfulFlips e →
    decodeBlock n ((encodeBlock n t d).set j ((encodeBlock n t d)[j] ^^^ e)) = .fail

/-- What the checksum and the alignment do not promise: the silent wrong result of R115 and the misaligned block of R47
that passes, each an example of the spec for `N = 4` which it marks as derived. -/
def Obligations.SilentWrongResultsExist : Prop :=
  decodeBlock ⟨4, by decide⟩ #v[0x00, 0x56, 0x00, 0x2A, 0x00, 0x7C, 0x00, 0x00] = .ok 0x02 0x0A ∧
  (encodeBlock ⟨4, by decide⟩ 0x05 0x0A).toList ++ (encodeBlock ⟨4, by decide⟩ 0x12 0x34).toList =
    [0x00, 0x55, 0x00, 0x2A, 0x00, 0x7F, 0x00, 0x00, 0x61, 0x52, 0x33, 0x34, 0x52, 0x66, 0x00, 0x00] ∧
  decodeBlock ⟨4, by decide⟩ #v[0x55, 0x00, 0x2A, 0x00, 0x7F, 0x00, 0x00, 0x61] = .ok 0x50 0xA0

/-! ### Single-codeword correction -/

/-- R131, whole: HSYN answers the three checks as bits 0, 1 and 2 of `RES`, the other bits zero, with `FAIL = 0`; its
encoding and its corner cases. Which check is which bit is the spec's decision D9 (log 6). -/
def Obligations.HsynAnswersSyndrome : Prop :=
  (∀ (s : State) (a b c : Byte), ∃ r : Response s.blockLength,
    exec (.hsyn a b c) s = .next (s.respond r) ∧ r.fail = false ∧
    r.res.getLsbD 0 = (a.getLsbD 6 ^^ a.getLsbD 3 ^^ a.getLsbD 1 ^^ a.getLsbD 0) ∧
    r.res.getLsbD 1 = (a.getLsbD 5 ^^ a.getLsbD 3 ^^ a.getLsbD 2 ^^ a.getLsbD 0) ∧
    r.res.getLsbD 2 = (a.getLsbD 4 ^^ a.getLsbD 3 ^^ a.getLsbD 2 ^^ a.getLsbD 1) ∧
    (∀ k, 3 ≤ k → r.res.getLsbD k = false) ∧ r.res = (syn a).setWidth 8) ∧
  (∀ a b c : Byte, decodeWord (commandWord 0b101#3 c b a) = .hsyn a b c) ∧
  (∀ x y : Byte, (syn x = 0#3 ↔ validCodeword x = true ∨ validCodeword (x ^^^ 0x80#8) = true) ∧
    syn (x ^^^ 0x80#8) = syn x ∧ syn (x ^^^ y) = syn x ^^^ syn y) ∧
  (List.range 8).map (fun k => syn (bitMask k)) = [3#3, 5#3, 6#3, 7#3, 4#3, 2#3, 1#3, 0#3] ∧
  syn 0xFF#8 = 0#3 ∧ syn 0x7F#8 = 0#3 ∧ syn 0x54#8 = 3#3

/-- R132 and D10, which the spec marks as derived: the correction table undoes every flip of a meaningful bit, is the
only table that does, has the listed values and never touches bit 7. -/
def Obligations.CorrectionTableIsTheOnlyOne : Prop :=
  (∀ k, k < 7 → cor (syn (bitMask k)) = bitMask k) ∧ cor 0#3 = 0x00#8 ∧
  (∀ f : Syndrome → Byte, f 0#3 = 0x00#8 → (∀ k, k < 7 → f (syn (bitMask k)) = bitMask k) → f = cor) ∧
  ∀ s : Syndrome, cor s = corTable[s.toNat] ∧ (cor s).getLsbD 7 = false

/-- R133, whole: HCOR answers `A xor COR[Syn(A)]` with `FAIL = 0`; its encoding and its corner cases. -/
def Obligations.HcorAnswersCorrectedCodeword : Prop :=
  (∀ (s : State) (a b c : Byte), ∃ r : Response s.blockLength,
    exec (.hcor a b c) s = .next (s.respond r) ∧ r.fail = false ∧ r.res = a ^^^ corTable[(syn a).toNat] ∧
    r.res = correct a) ∧
  (∀ a b c : Byte, decodeWord (commandWord 0b110#3 c b a) = .hcor a b c) ∧
  (∀ x : Byte, (syn x = 0#3 → correct x = x) ∧ (syn x ≠ 0#3 → ∃ k, k < 8 ∧ correct x = x ^^^ bitMask k) ∧
    syn (correct x) = 0#3 ∧ validCodeword (correct x &&& 0x7F#8) = true ∧ correct (correct x) = correct x ∧
    (correct x).getLsbD 7 = x.getLsbD 7 ∧ (validCodeword (correct x) = true ↔ x.getLsbD 7 = false)) ∧
  syn 0x54#8 = 3#3 ∧ cor 3#3 = 0x01#8 ∧ correct 0x54#8 = 0x55#8 ∧
  syn 0x56#8 = 6#3 ∧ cor 6#3 = 0x04#8 ∧ correct 0x56#8 = 0x52#8

/-- R134, whole: HDEC answers bits 3:0 of the corrected codeword, zero-extended, with `FAIL = 0`; its encoding and its
corner cases. -/
def Obligations.HdecAnswersNibble : Prop :=
  (∀ (s : State) (a b c : Byte), ∃ r : Response s.blockLength,
    exec (.hdec a b c) s = .next (s.respond r) ∧ r.fail = false ∧
    r.res = ((correct a).extractLsb' 0 4).setWidth 8 ∧ r.res = (hDec a).setWidth 8 ∧
    (∀ k, 4 ≤ k → r.res.getLsbD k = false)) ∧
  (∀ a b c : Byte, decodeWord (commandWord 0b111#3 c b a) = .hdec a b c) ∧
  (∀ n : Nibble, hDec (hEnc n) = n ∧
    ((List.range 128).filter fun v => hDec (BitVec.ofNat 8 v) == n).length = 8) ∧
  (∀ x : Byte, hDec (x ^^^ 0x80#8) = hDec x ∧
    (syn x = 0#3 ∨ syn x = 1#3 ∨ syn x = 2#3 ∨ syn x = 4#3 → hDec x = x.extractLsb' 0 4)) ∧
  hDec 0x54#8 = 0x5#4 ∧ hDec 0x15#8 = 0x5#4 ∧ hDec 0x56#8 = 0x2#4

/-- R135 through the operations, which the spec marks as derived: of every valid codeword with any one meaningful bit
flipped, HSYN answers the syndrome of that flip, HCOR the codeword and HDEC the nibble; with bit 7 flipped, HDEC still
the nibble. -/
def Obligations.SingleFlipIsCorrected : Prop :=
  ∀ (s : State) (n : Nibble) (k : Nat) (b c : Byte), k < 7 →
    let cw : Byte := hEnc n ^^^ (1#8 <<< k)
    ∃ rs rc rd r7 : Response s.blockLength,
      exec (.hsyn cw b c) s = .next (s.respond rs) ∧ rs.res = (syn (1#8 <<< k)).setWidth 8 ∧ rs.res ≠ 0x00#8 ∧
      exec (.hcor cw b c) s = .next (s.respond rc) ∧ rc.res = hEnc n ∧
      exec (.hdec cw b c) s = .next (s.respond rd) ∧ rd.res = n.setWidth 8 ∧
      exec (.hdec (hEnc n ^^^ 0x80#8) b c) s = .next (s.respond r7) ∧ r7.res = n.setWidth 8

/-- R136 (a) and (b), which the spec marks as derived: exactly one nibble's codeword lies within one meaningful bit of
any byte and HDEC finds it, so two or more flips always give a wrong nibble, and two give a nonzero syndrome. -/
def Obligations.DecoderFindsNearestCodeword : Prop :=
  (∀ (x : Byte) (n : Nibble), meaningfulFlips (x ^^^ hEnc n) ≤ 1 ↔ n = hDec x) ∧
  ∀ (n : Nibble) (e : Byte), (2 ≤ meaningfulFlips e → hDec (hEnc n ^^^ e) ≠ n) ∧
    (meaningfulFlips e = 2 → syn (hEnc n ^^^ e) ≠ 0#3)

/-- R62, R63 and R64, of which the spec marks the last two as derived: the listed codewords are the encoder's, are those
with bit 7 clear and all checks even, differ pairwise in at least 3 bits and are closed under `xor`; the columns of the
meaningful bits are distinct and not zero. The subsets are the spec's decision D8 (log 6). -/
def Obligations.CodeHasDistanceThree : Prop :=
  (∀ x : Byte, validCodeword x = true ↔ x.getLsbD 7 = false ∧ ∀ k : Check, checkBit k x = false) ∧
  (∀ x : Byte, validCodeword x = true ↔ ∃ n : Nibble, x = hEnc n) ∧
  (∀ m n : Nibble, (m ≠ n → 3 ≤ meaningfulFlips (hEnc m ^^^ hEnc n)) ∧
    validCodeword (hEnc m ^^^ hEnc n) = true) ∧
  (∀ j k, j < 7 → k < 7 → (column j = column k → j = k) ∧ column k ≠ 0#3) ∧ column 7 = 0#3

/-- R73 (the spec's decision D11, log 10): bit 7 is clear in what HENC answers; HSYN, HDEC and DECODE answer the same
with bit 7 of a received codeword inverted, in any set of codewords; HCOR passes it through. -/
def Obligations.BitSevenIsIgnored : Prop :=
  ∀ (s : State) (a b c : Byte) (m : Nat → Bool),
    let flip (j : Nat) (x : Byte) : Byte := if m j then x ^^^ 0x80#8 else x
    let s' : State := { s with win := Vector.ofFn fun j => flip j.val (s.win[j.val]'j.isLt) }
    (∃ r : Response s.blockLength, exec (.henc a b c) s = .next (s.respond r) ∧ r.res.getLsbD 7 = false) ∧
    (∃ r : Response s.blockLength, exec (.hsyn a b c) s = .next (s.respond r) ∧
      exec (.hsyn (a ^^^ 0x80#8) b c) s = .next (s.respond r)) ∧
    (∃ r : Response s.blockLength, exec (.hdec a b c) s = .next (s.respond r) ∧
      exec (.hdec (a ^^^ 0x80#8) b c) s = .next (s.respond r)) ∧
    (∃ r r' : Response s.blockLength, exec (.hcor a b c) s = .next (s.respond r) ∧
      exec (.hcor (a ^^^ 0x80#8) b c) s = .next (s.respond r') ∧ r'.res = r.res ^^^ 0x80#8) ∧
    (∃ r : Response s.blockLength, exec (.decode a b c) s = .next (s.respond r) ∧
      exec (.decode a b c) s' = .next { s' with response := some r })

/-! ### Operand assembly -/

/-- R65 and R66, whole: the halves of a byte, by shift and mask, and the byte recombined from two nibbles. -/
def Obligations.BytesSplitAndRecombine : Prop :=
  (∀ b : Byte, (highNibble b).setWidth 8 = b >>> 4 ∧ (lowNibble b).setWidth 8 = b &&& 0x0F#8 ∧
    (∀ k, k < 4 → (highNibble b).getLsbD k = b.getLsbD (k + 4) ∧ (lowNibble b).getLsbD k = b.getLsbD k)) ∧
  (∀ h l : Nibble, joinNibbles h l = (h.setWidth 8 <<< 4) ||| l.setWidth 8 ∧
    (h.setWidth 8 <<< 4) &&& l.setWidth 8 = 0x00#8 ∧
    highNibble (joinNibbles h l) = h ∧ lowNibble (joinNibbles h l) = l) ∧
  highNibble 0xA5#8 = 0xA#4 ∧ lowNibble 0xA5#8 = 0x5#4 ∧ joinNibbles 0x3#4 0xC#4 = 0x3C#8

/-- R130: the parity of a byte is one bit, 1 exactly when the number of 1 bits is odd. -/
def Obligations.ParityCountsOddOnes : Prop :=
  (∀ v : Byte, par v = true ↔ ((List.range 8).filter fun k => v.getLsbD k).length % 2 = 1) ∧
  (∀ v : Byte, par v = (v.getLsbD 7 ^^ v.getLsbD 6 ^^ v.getLsbD 5 ^^ v.getLsbD 4 ^^
    v.getLsbD 3 ^^ v.getLsbD 2 ^^ v.getLsbD 1 ^^ v.getLsbD 0)) ∧
  par 0x00#8 = false ∧ par 0x4B#8 = false ∧ par 0x01#8 = true ∧ par 0x0B#8 = true

/-- R93 and R94, whole: the two codewords of a byte, high nibble first, and the RawBlock of a pair for every block
length. The padding value is the spec's decision D6 (log 7). -/
def Obligations.RawBlockLayoutAndByteExpansion : Prop :=
  (∀ b : Byte, byteEnc b = (hEnc (b.extractLsb' 4 4), hEnc (b.extractLsb' 0 4))) ∧
  (∀ (n : BlockLength) (t d : Byte) (i : Nat) (h : i < n.val),
    (i = 0 → (mkRaw n t d)[i] = t) ∧ (i = 1 → (mkRaw n t d)[i] = d) ∧
    (i = 2 → (mkRaw n t d)[i] = t ^^^ d) ∧ (3 ≤ i → (mkRaw n t d)[i] = 0x00#8)) ∧
  byteEnc 0x0A#8 = (0x00#8, 0x2A#8) ∧ byteEnc 0xA5#8 = (0x2A#8, 0x55#8) ∧
  (mkRaw ⟨4, by decide⟩ 0x05#8 0x0A#8).toList = [0x05#8, 0x0A#8, 0x0F#8, 0x00#8]

/-! ### The composite operations from the primitive ones -/

/-- The two views of the encoder agree (R71, R79 BENC): the wire block ENCODE answers holds, for each RawBlock byte,
what HENC answers for its high and its low nibble, the checksum byte being what CSUM answers. -/
def Obligations.EncodeComposesHencAndCsum : Prop :=
  ∀ (s : State) (t d c : Byte), ∃ r rk : Response s.blockLength,
    exec (.encode t d c) s = .next (s.respond r) ∧ exec (.csum t d c) s = .next (s.respond rk) ∧
    ∀ (i : Nat) (h : i < s.blockLength.val),
      let x : Byte := if i = 0 then t else if i = 1 then d else if i = 2 then rk.res else 0x00#8
      ∃ rh rl : Response s.blockLength,
        exec (.henc (x >>> 4) 0x00#8 0x00#8) s = .next (s.respond rh) ∧ r.wout[2 * i]'(by omega) = rh.res ∧
        exec (.henc x 0x00#8 0x00#8) s = .next (s.respond rl) ∧ r.wout[2 * i + 1]'(by omega) = rl.res

/-- The two views of the decoder agree (R71, R79 BDEC): there are three bytes recombined from what HDEC answers for
`WIN[0 .. 5]` such that DECODE's `FAIL` is CHK's for them, and without failure DECODE answers the first two. -/
def Obligations.DecodeComposesHdecAndChk : Prop :=
  ∀ (s : State) (a b c : Byte), ∃ (r rf : Response s.blockLength) (x : Fin 3 → Byte),
    (∀ i : Fin 3, ∃ rh rl : Response s.blockLength,
      exec (.hdec (s.win[2 * i.val]'(by have := s.blockLength.property; omega)) 0x00#8 0x00#8) s =
        .next (s.respond rh) ∧
      exec (.hdec (s.win[2 * i.val + 1]'(by have := s.blockLength.property; omega)) 0x00#8 0x00#8) s =
        .next (s.respond rl) ∧
      x i = (rh.res <<< 4) ||| rl.res) ∧
    exec (.decode a b c) s = .next (s.respond r) ∧ exec (.chk (x 0) (x 1) (x 2)) s = .next (s.respond rf) ∧
    r.fail = rf.fail ∧ (r.fail = false → r.res = x 0 ∧ r.res2 = x 1)

/-! ### Error causes and the shape of a request -/

/-- R151 to R153 (the cause labels are the spec's decision D19, log 14): DECODE reports cause 2 exactly when the
corrected bytes fail the checksum and never cause 1 or 3; a codeword meets cause 1 exactly when it is changed. -/
def Obligations.OnlyChecksumMismatchIsReported : Prop :=
  (∀ (s : State) (a b c : Byte),
    have hn : 3 ≤ s.blockLength.val := s.blockLength.property
    let b0 : Byte := byteDec (s.win[0]'(by omega)) (s.win[1]'(by omega))
    let b1 : Byte := byteDec (s.win[2]'(by omega)) (s.win[3]'(by omega))
    let b2 : Byte := byteDec (s.win[4]'(by omega)) (s.win[5]'(by omega))
    ∃ r : Response s.blockLength, exec (.decode a b c) s = .next (s.respond r) ∧
      (r.cause = .uncorrectable ↔ b0 ^^^ b1 ≠ b2) ∧ (r.cause = .none ↔ b0 ^^^ b1 = b2) ∧
      r.cause ≠ .correctedBit ∧ r.cause ≠ .insufficientData) ∧
  ∀ cw : Byte, codewordCause cw = .correctedBit ↔ correct cw ≠ cw

/-- R44, R77 and U7: untyped bytes make a request exactly when the block length is at least 3, the wire block has `2N`
bytes and the command word fits 27 bits; a shorter or longer block cannot be presented. The loader is the model's
(log 12). -/
def Obligations.OnlyWholeWireBlocksArePresented : Prop :=
  ∀ (n cmd : Nat) (bytes : List Byte),
    (State.ofPorts n cmd bytes).isSome = true ↔ 3 ≤ n ∧ bytes.length = 2 * n ∧ cmd < 2 ^ 27

/-! ### Sessions, reset and the invariant -/

/-- R50 (the spec's decision D17): transactions complete one at a time, the responses come in issue order, and each is
what its request alone would give (R30, which the spec marks as derived). How a request and a session are written
(`Request`, `transact`, `session`) is the model's choice (log 12). -/
def Obligations.SessionServesEachRequestAlone : Prop :=
  ∀ s : State, ∃ f : Request → Response s.blockLength,
    (∀ q : Request, transact s q = .next (s.served q (f q))) ∧
    ∀ qs : List Request, session s qs = .next (qs.map fun q => s.served q (f q))

/-- R50 (the spec's decision D17): any two transactions commute. A series in another order gives the same states in that
order. How a session is written is the model's choice (log 12). -/
def Obligations.ReorderedSessionsAgree : Prop :=
  ∀ (s : State) (qs qs' : List Request), qs.Perm qs' →
    ∃ ts ts' : List State, session s qs = .next ts ∧ session s qs' = .next ts' ∧ ts.Perm ts' ∧ ts.length = qs.length

/-- R180 (the spec's decision D16): the first transaction after reset is like every other. A request driven after reset
and the same request driven on a block in any state of the length `State.reset` holds, with any response of an earlier
transaction still standing there, are answered alike: one step, one next state. That length is the model's choice
(log 1), as is how a request is driven (log 12). -/
def Obligations.FirstTransactionAfterResetIsLikeAnyOther : Prop :=
  ∀ s : State, s.blockLength = State.reset.blockLength →
    ∀ (q : Request) (old : Option (Response (s.drive q).blockLength)),
      step { s.drive q with response := old } = step (State.reset.drive q) ∧
      ∃ t : State, step (State.reset.drive q) = .next t

/-- What reset leaves: no response (R31), and for the block length and the input ports, which the spec leaves to the
builder and the host, the model's own values (log 1 and log 2, DESIGN CHOICE). -/
def Obligations.ResetLeavesNoResponse : Prop :=
  State.reset.response = none ∧ State.reset.blockLength.val = 4 ∧ State.reset.cmd = 0#27 ∧
    ∀ b ∈ State.reset.win.toList, b = 0x00#8

/-- Every step keeps the invariant: a response present has zeros beside `FAIL = 1` (R157, which the spec marks as
derived) and only valid codewords on `WOUT` (R64, R73, R95). That the zeros stand on unnamed outputs is D4 (log 17). -/
def Obligations.StepKeepsResponsesLawful : Prop := ∀ s t : State, s.Inv → step s = .next t → t.Inv

/-- The invariant holds at reset. -/
def Obligations.ResetResponseIsLawful : Prop := State.reset.Inv
end

