-- ==== Sys2Proof/Laws/Decode.lean ====
section
/-! SUPPORT. The bits and fields of an assembled command word (spec/30_encoding.md R70). -/

namespace Sys2Proof

/-- Every bit of an assembled command word, by the field it lies in (R70). -/
theorem commandWord_getLsbD (op : OpSelect) (c b a : Byte) (i : Nat) :
    (commandWord op c b a).getLsbD i =
      if i < 8 then a.getLsbD i
      else if i < 16 then b.getLsbD (i - 8)
      else if i < 24 then c.getLsbD (i - 16)
      else op.getLsbD (i - 24) := by
  have h : (commandWord op c b a).getLsbD i =
      (((op ++ c : BitVec (3 + 8)) ++ b : BitVec (3 + 8 + 8)) ++ a : BitVec (3 + 8 + 8 + 8)).getLsbD i := rfl
  rw [h, BitVec.getLsbD_append, BitVec.getLsbD_append, BitVec.getLsbD_append]
  split
  · rfl
  · split_ifs <;> first | rfl | omega

/-- Field `A` of an assembled command word. -/
@[simp] theorem fieldA_commandWord (op : OpSelect) (c b a : Byte) : fieldA (commandWord op c b a) = a := by
  apply BitVec.eq_of_getLsbD_eq
  intro i hi
  rw [fieldA, BitVec.getLsbD_extractLsb', commandWord_getLsbD]
  simp [hi]

/-- Field `B` of an assembled command word. -/
@[simp] theorem fieldB_commandWord (op : OpSelect) (c b a : Byte) : fieldB (commandWord op c b a) = b := by
  apply BitVec.eq_of_getLsbD_eq
  intro i hi
  have h : 8 + i < 16 := by omega
  rw [fieldB, BitVec.getLsbD_extractLsb', commandWord_getLsbD]
  simp [hi, h]

/-- Field `C` of an assembled command word. -/
@[simp] theorem fieldC_commandWord (op : OpSelect) (c b a : Byte) : fieldC (commandWord op c b a) = c := by
  apply BitVec.eq_of_getLsbD_eq
  intro i hi
  have h1 : ¬ 16 + i < 8 := by omega
  have h2 : 16 + i < 24 := by omega
  rw [fieldC, BitVec.getLsbD_extractLsb', commandWord_getLsbD]
  simp [hi, h1, h2]

end Sys2Proof
end

