-- ==== Sys2Proof/Laws/Hamming.lean ====
section
/-! SUPPORT. What the functions of the code can do: each check as the bits it covers, and the masks the correction table
can hold. -/

namespace Sys2Proof.Machine

/-- The bits check C1 covers (R63). -/
theorem checkBit_c1 (cw : Byte) :
    checkBit .c1 cw = (cw.getLsbD 6 ^^ cw.getLsbD 3 ^^ cw.getLsbD 1 ^^ cw.getLsbD 0) := by
  simp [checkBit, chkMask, par]

/-- The bits check C2 covers (R63). -/
theorem checkBit_c2 (cw : Byte) :
    checkBit .c2 cw = (cw.getLsbD 5 ^^ cw.getLsbD 3 ^^ cw.getLsbD 2 ^^ cw.getLsbD 0) := by
  simp [checkBit, chkMask, par]

/-- The bits check C3 covers (R63). -/
theorem checkBit_c3 (cw : Byte) :
    checkBit .c3 cw = (cw.getLsbD 4 ^^ cw.getLsbD 3 ^^ cw.getLsbD 2 ^^ cw.getLsbD 1) := by
  simp [checkBit, chkMask, par]

/-- An entry of the correction table is zero or the mask of one meaningful bit (R132). -/
theorem cor_cases (s : Syndrome) : cor s = 0#8 ∨ ∃ k, k < 7 ∧ cor s = bitMask k := by
  revert s; decide

/-- The low nibble of an encoded nibble is the nibble: the code is systematic (R61). -/
theorem lowNibble_hEnc (n : Nibble) : lowNibble (hEnc n) = n := by
  revert n; decide

end Sys2Proof.Machine
end

