-- ==== Sys2Proof/Laws/State.lean ====
section
/-! SUPPORT. One lemma per field of `State` per update, and the fields of the zero response and of the decoded ones. -/

namespace Sys2Proof.Machine

@[simp] theorem State.respond_blockLength (s : State) (r : Response s.blockLength) :
    (s.respond r).blockLength = s.blockLength := rfl

@[simp] theorem State.respond_cmd (s : State) (r : Response s.blockLength) : (s.respond r).cmd = s.cmd := rfl

@[simp] theorem State.respond_win (s : State) (r : Response s.blockLength) : (s.respond r).win = s.win := rfl

@[simp] theorem State.respond_response (s : State) (r : Response s.blockLength) :
    (s.respond r).response = some r := rfl

/-- Nothing of the response before survives the next one (R20). -/
@[simp] theorem State.respond_respond (s : State) (r r' : Response s.blockLength) :
    (s.respond r).respond r' = s.respond r' := rfl

@[simp] theorem State.drive_blockLength (s : State) (r : Request) : (s.drive r).blockLength = s.blockLength := rfl

@[simp] theorem State.drive_cmd (s : State) (r : Request) : (s.drive r).cmd = r.cmd := rfl

@[simp] theorem State.drive_win (s : State) (r : Request) :
    (s.drive r).win = Vector.ofFn fun j => r.bytes j.val := rfl

@[simp] theorem State.drive_response (s : State) (r : Request) : (s.drive r).response = none := rfl

/-- Driving a request forgets the response before it (R20, R31). -/
@[simp] theorem State.drive_respond (s : State) (r : Response s.blockLength) (q : Request) :
    (s.respond r).drive q = s.drive q := rfl

@[simp] theorem State.drive_drive (s : State) (p q : Request) : (s.drive p).drive q = s.drive q := rfl

@[simp] theorem State.served_blockLength (s : State) (q : Request) (r : Response s.blockLength) :
    (s.served q r).blockLength = s.blockLength := rfl

@[simp] theorem State.served_cmd (s : State) (q : Request) (r : Response s.blockLength) :
    (s.served q r).cmd = q.cmd := rfl

@[simp] theorem State.served_win (s : State) (q : Request) (r : Response s.blockLength) :
    (s.served q r).win = Vector.ofFn fun j => q.bytes j.val := rfl

@[simp] theorem State.served_response (s : State) (q : Request) (r : Response s.blockLength) :
    (s.served q r).response = some r := rfl

/-- Driving the next request forgets the transaction before it (R20, R31). -/
@[simp] theorem State.drive_served (s : State) (q q' : Request) (r : Response s.blockLength) :
    (s.served q r).drive q' = s.drive q' := rfl

/-- Answering a driven request gives the served state. -/
@[simp] theorem State.respond_drive (s : State) (q : Request) (r : Response s.blockLength) :
    (s.drive q).respond r = s.served q r := rfl

@[simp] theorem State.withFetchWord_blockLength (s : State) (nbits w : Nat) :
    (s.withFetchWord nbits w).blockLength = s.blockLength := rfl

@[simp] theorem State.withFetchWord_cmd (s : State) (nbits w : Nat) :
    (s.withFetchWord nbits w).cmd = commandOfBits nbits w := rfl

@[simp] theorem State.withFetchWord_win (s : State) (nbits w : Nat) : (s.withFetchWord nbits w).win = s.win := rfl

@[simp] theorem State.withFetchWord_response (s : State) (nbits w : Nat) :
    (s.withFetchWord nbits w).response = s.response := rfl

@[simp] theorem Response.zero_res (n : BlockLength) : (Response.zero n).res = 0#8 := rfl

@[simp] theorem Response.zero_res2 (n : BlockLength) : (Response.zero n).res2 = 0#8 := rfl

@[simp] theorem Response.zero_fail (n : BlockLength) : (Response.zero n).fail = false := rfl

@[simp] theorem Response.zero_wout (n : BlockLength) : (Response.zero n).wout = Vector.replicate _ 0#8 := rfl

@[simp] theorem Decoded.toResponse_ok (n : BlockLength) (t d : Byte) :
    (Decoded.ok t d).toResponse n = { Response.zero n with res := t, res2 := d } := rfl

@[simp] theorem Decoded.toResponse_fail (n : BlockLength) :
    Decoded.fail.toResponse n = { Response.zero n with fail := true } := rfl

end Sys2Proof.Machine
end

