-- ==== Sys2Proof/Laws/Ops.lean ====
section
/-! SUPPORT. One lemma per shared operation that says what it can do, cited instead of unfolding it. -/

namespace Sys2Proof.Machine

/-- All that `answer` can do: the next state is the old one with the response shown. -/
theorem answer_eq_next {s t : State} {r : Response s.blockLength} : answer s r = .next t ↔ t = s.respond r := by
  constructor
  · rintro ⟨⟩; rfl
  · rintro rfl; rfl

/-- The outcome of a step is the outcome of the selected operation. -/
theorem step_eq_exec (s : State) : step s = exec (decodeWord s.cmd) s := rfl

/-- Bytes of the RawBlock ENCODE builds. -/
theorem mkRaw_getElem (n : BlockLength) (t d : Byte) (i : Nat) (h : i < n.val) :
    (mkRaw n t d)[i] = rawByte t d i := by
  simp [mkRaw]

/-- The even wire index carries the high nibble's codeword. -/
theorem expandRaw_even (n : BlockLength) (raw : Vector Byte n.val) (i : Nat) (h : i < n.val) :
    (expandRaw n raw)[2 * i]'(by omega) = (byteEnc raw[i]).1 := by
  simp [expandRaw]

/-- The odd wire index carries the low nibble's codeword. -/
theorem expandRaw_odd (n : BlockLength) (raw : Vector Byte n.val) (i : Nat) (h : i < n.val) :
    (expandRaw n raw)[2 * i + 1]'(by omega) = (byteEnc raw[i]).2 := by
  have hd : (2 * i + 1) / 2 = i := by omega
  simp [expandRaw, hd]

/-- Bytes of the RawBlock DECODE rebuilds. -/
theorem rebuildRaw_getElem (n : BlockLength) (w : Vector Byte (2 * n.val)) (i : Nat) (h : i < n.val) :
    (rebuildRaw n w)[i] = byteDec (w[2 * i]'(by omega)) (w[2 * i + 1]'(by omega)) := by
  simp [rebuildRaw]

/-- `FAIL` is clear exactly when the three bytes agree. -/
theorem chk_eq_false_iff (b0 b1 b2 : Byte) : chk b0 b1 b2 = false ↔ csum b0 b1 = b2 := by
  simp [chk]

/-- `FAIL` is set exactly when the three bytes disagree. -/
theorem chk_eq_true_iff (b0 b1 b2 : Byte) : chk b0 b1 b2 = true ↔ csum b0 b1 ≠ b2 := by
  simp [chk]

/-- DECODE looks at the first six codewords only. -/
theorem decodeBlock_eq (n : BlockLength) (w : Vector Byte (2 * n.val)) :
    decodeBlock n w =
      let b0 := byteDec (w[0]'(by have := n.property; omega)) (w[1]'(by have := n.property; omega))
      let b1 := byteDec (w[2]'(by have := n.property; omega)) (w[3]'(by have := n.property; omega))
      let b2 := byteDec (w[4]'(by have := n.property; omega)) (w[5]'(by have := n.property; omega))
      if chk b0 b1 b2 then .fail else .ok b0 b1 := by
  simp [decodeBlock, rebuildRaw]

/-- A driven request is served whatever response stood there before (R20). -/
theorem transact_respond (s : State) (r : Response s.blockLength) (q : Request) :
    transact (s.respond r) q = transact s q := rfl

/-- What a state built from untyped ports holds. -/
theorem State.ofPorts_eq_some {n cmd : Nat} {bytes : List Byte} {s : State} (h : State.ofPorts n cmd bytes = some s) :
    3 ≤ n ∧ bytes.length = 2 * n ∧ cmd < 2 ^ 27 ∧ s.blockLength.val = n ∧ s.cmd = BitVec.ofNat 27 cmd ∧
      s.win.toList = bytes ∧ s.response = none := by
  unfold State.ofPorts at h
  split at h
  · rename_i hn
    split at h
    · rename_i hw
      split at h
      · rename_i hc
        cases h
        exact ⟨of_decide_eq_true hn, of_decide_eq_true hw, of_decide_eq_true hc, rfl, rfl, rfl, rfl⟩
      · cases h
    · cases h
  · cases h

end Sys2Proof.Machine
end

