-- ==== Sys2Proof/Laws/PerInstr.lean ====
section
/-! SUPPORT. The per-instruction family: the encoding of each instruction carries its operation select in bits 26 to 24
(spec/30_encoding.md R70, R71). -/

namespace Sys2Proof

/-- The upper three bits of an assembled command word are the operation select. -/
theorem commandWord_opSelect (op : OpSelect) (c b a : Byte) : (commandWord op c b a).extractLsb' 24 3 = op := by
  apply BitVec.eq_of_getLsbD_eq
  intro i hi
  have h1 : ¬ 24 + i < 8 := by omega
  have h2 : ¬ 24 + i < 16 := by omega
  rw [BitVec.getLsbD_extractLsb', commandWord_getLsbD]
  simp [hi, h1, h2]

/-- The encoding of the instruction carries its operation select. -/
def Laws.OperationSelect.Statement (i : Instr) : Prop := (encode i).extractLsb' 24 3 = i.opSelect

theorem Laws.OperationSelect.csum (a b c : Byte) : Laws.OperationSelect.Statement (.csum a b c) :=
  commandWord_opSelect ..

theorem Laws.OperationSelect.henc (a b c : Byte) : Laws.OperationSelect.Statement (.henc a b c) :=
  commandWord_opSelect ..

theorem Laws.OperationSelect.encode (a b c : Byte) : Laws.OperationSelect.Statement (.encode a b c) :=
  commandWord_opSelect ..

theorem Laws.OperationSelect.chk (a b c : Byte) : Laws.OperationSelect.Statement (.chk a b c) :=
  commandWord_opSelect ..

theorem Laws.OperationSelect.decode (a b c : Byte) : Laws.OperationSelect.Statement (.decode a b c) :=
  commandWord_opSelect ..

theorem Laws.OperationSelect.hsyn (a b c : Byte) : Laws.OperationSelect.Statement (.hsyn a b c) :=
  commandWord_opSelect ..

theorem Laws.OperationSelect.hcor (a b c : Byte) : Laws.OperationSelect.Statement (.hcor a b c) :=
  commandWord_opSelect ..

theorem Laws.OperationSelect.hdec (a b c : Byte) : Laws.OperationSelect.Statement (.hdec a b c) :=
  commandWord_opSelect ..

end Sys2Proof
end

