-- ==== Sys2Proof/Tests/Slice0.lean ====
section
/-! SUPPORT. The model's own tests: the vectors of spec/95_test_vectors.md, the smoke tests of the well-formedness
checks, and a witness for the hypotheses of each statement that has some. -/

namespace Sys2Proof.Tests

open Sys2Proof.Machine

/-! ### Well-formedness refuses each ill-formed term -/

/-- `N = 2` leaves no room for the checksum (R41). -/
theorem test_block_length_two_refused : blockLengthOk 2 = false ∧ blockLengthOk 3 = true := by decide

/-- A number of 28 bits is no command word (R77). -/
theorem test_wide_command_refused : commandWordOk 0x8000000 = false ∧ commandWordOk 0x7FFFFFF = true := by decide

/-- A block of 7 or 9 bytes is no wire block for `N = 4` (R44, U7). -/
theorem test_short_and_long_block_refused :
    wireBlockOk 4 (List.replicate 7 0) = false ∧ wireBlockOk 4 (List.replicate 9 0) = false ∧
      wireBlockOk 4 (List.replicate 8 0) = true := by decide

/-- No instruction is ill formed (R75, R76). -/
theorem test_instructions_well_formed (i : Instr) : i.wellFormed = true := by cases i <;> rfl

theorem test_ports_refuse_short_block : State.ofPorts 4 0x4000000 (List.replicate 7 0) = none := by decide

/-! ### Decoding: words written out from the fields of R70 and R71 -/

theorem test_decode_csum : decodeWord 0b000_00000000_00111100_10100101#27 = .csum 0xA5 0x3C 0x00 := by decide

theorem test_decode_henc : decodeWord 0b001_00000000_00000000_11110101#27 = .henc 0xF5 0x00 0x00 := by decide

theorem test_decode_encode : decodeWord 0b010_00000000_00001010_00000101#27 = .encode 0x05 0x0A 0x00 := by decide

theorem test_decode_chk : decodeWord 0b011_10001111_00001010_00000101#27 = .chk 0x05 0x0A 0x8F := by decide

theorem test_decode_decode : decodeWord 0b100_00000001_00000010_00000011#27 = .decode 0x03 0x02 0x01 := by decide

theorem test_decode_hsyn : decodeWord 0b101_00000000_00000000_01010100#27 = .hsyn 0x54 0x00 0x00 := by decide

theorem test_decode_hcor : decodeWord 0b110_00000000_00000000_11010100#27 = .hcor 0xD4 0x00 0x00 := by decide

theorem test_decode_hdec : decodeWord 0b111_00000000_00000000_01010110#27 = .hdec 0x56 0x00 0x00 := by decide

/-- The `CMD` column of section 2.6 and 2.3. -/
theorem test_encode_words :
    encode (.chk 0x05 0x0A 0x8F) = 0x38F0A05#27 ∧ encode (.hcor 0xD4 0 0) = 0x60000D4#27 ∧
      decodeTableWord 32 0x38F0A05 = some (.chk 0x05 0x0A 0x8F) ∧ decodeTableWord 32 0x8000000 = none := by decide

/-! ### One step of each operation -/

/-- The outputs of one transaction with `N = 4`: `RES`, `RES2`, `FAIL`, `WOUT`. -/
def outputs (cmd : Nat) (win : List Byte) : Option (Byte × Byte × Bool × List Byte) :=
  match State.ofPorts 4 cmd win with
  | none => none
  | some s =>
    match step s with
    | .next t => t.response.map fun r => (r.res, r.res2, r.fail, r.wout.toList)
    | .fault _ => none
    | .refused _ => none

/-- A wire block no operation but DECODE reads. -/
def noise : List Byte := [0xFF, 0x01, 0x02, 0x03, 0x04, 0x05, 0x06, 0x07]

/-- Eight zero bytes. -/
def zeros : List Byte := List.replicate 8 0

/-- Section 2.6: `CSUM 0xA5, 0x3C`. -/
theorem test_csum : outputs 0x0003CA5 noise = some (0x99, 0x00, false, zeros) := by decide

/-- Section 2.6: equal operands give 0, here with `C` set. -/
theorem test_csum_equal_operands : outputs 0x0FFFFFF noise = some (0x00, 0x00, false, zeros) := by decide

/-- Section 2.1: nibble 5, the upper bits of `A` ignored. -/
theorem test_henc_ignores_upper_bits : outputs 0x10000F5 noise = some (0x55, 0x00, false, zeros) := by decide

/-- Section 2.1: nibble 0xE. -/
theorem test_henc_e : outputs 0x100000E noise = some (0x1E, 0x00, false, zeros) := by decide

/-- Section 3.1: `ENCODE 0xA5, 0x3C`. -/
theorem test_encode :
    outputs 0x2003CA5 noise =
      some (0x00, 0x00, false, [0x2A, 0x55, 0x33, 0x4C, 0x19, 0x19, 0x00, 0x00]) := by decide

/-- Section 3.1: `ENCODE 0xA5, 0x3C` for `N = 3` and `N = 5`. -/
theorem test_encode_other_lengths :
    (encodeBlock ⟨3, by decide⟩ 0xA5 0x3C).toList = [0x2A, 0x55, 0x33, 0x4C, 0x19, 0x19] ∧
      (encodeBlock ⟨5, by decide⟩ 0xA5 0x3C).toList =
        [0x2A, 0x55, 0x33, 0x4C, 0x19, 0x19, 0x00, 0x00, 0x00, 0x00] := by decide

/-- Section 2.6: match, and a checksum that differs in bit 7 only. -/
theorem test_chk :
    outputs 0x30F0A05 noise = some (0x00, 0x00, false, zeros) ∧
      outputs 0x38F0A05 noise = some (0x00, 0x00, true, zeros) := by decide

/-- Section 2.6: `CHK 0xFF, 0xFF, 0xFF` is a mismatch. -/
theorem test_chk_all_ones : outputs 0x3FFFFFF noise = some (0x00, 0x00, true, zeros) := by decide

/-- Section 3.2: one flipped bit in every codeword, bit 7 in the last. -/
theorem test_decode_corrects_every_codeword :
    outputs 0x4000000 [0x2B, 0x15, 0x3B, 0x5C, 0x39, 0x1B, 0x04, 0x80] = some (0xA5, 0x3C, false, zeros) := by decide

/-- Section 3.3: the double-bit error fails with zero outputs. -/
theorem test_decode_double_error_fails :
    outputs 0x4000000 [0x00, 0x56, 0x00, 0x2A, 0x00, 0x7F, 0x00, 0x00] = some (0x00, 0x00, true, zeros) := by decide

/-- Section 2.3: bits 7 and 0 flipped. -/
theorem test_hsyn : outputs 0x50000D4 noise = some (0x03, 0x00, false, zeros) := by decide

/-- Section 2.3: data bits all 1, parity 0. -/
theorem test_hsyn_seven : outputs 0x500000F noise = some (0x07, 0x00, false, zeros) := by decide

/-- Section 2.3: bit 7 passes through. -/
theorem test_hcor_passes_bit_seven : outputs 0x60000D4 noise = some (0xD5, 0x00, false, zeros) := by decide

/-- Section 2.3: two flips are miscorrected. -/
theorem test_hcor_miscorrects : outputs 0x6000056 noise = some (0x52, 0x00, false, zeros) := by decide

/-- Section 2.3: a parity bit flipped. -/
theorem test_hdec : outputs 0x7000045 noise = some (0x05, 0x00, false, zeros) := by decide

/-- Section 2.3: three flips, a wrong nibble. -/
theorem test_hdec_triple_error : outputs 0x7000025 noise = some (0x0D, 0x00, false, zeros) := by decide

/-- Section 2.4, rows `08`, `30` and `68`: syndrome, corrected codeword, nibble. -/
theorem test_decode_table_rows :
    [0x0B, 0x36, 0x69].map (fun w : Byte => (syn w, correct w, hDec w)) =
      [(1, 0x4B, 0xB), (5, 0x34, 0x4), (7, 0x61, 0x1)] := by decide

/-- Section 3.6: of the windows of a stream of two blocks, offset 1 passes with wrong values, offset 2 fails. -/
theorem test_misaligned_blocks :
    outputs 0x4000000 [0x55, 0x00, 0x2A, 0x00, 0x7F, 0x00, 0x00, 0x61] = some (0x50, 0xA0, false, zeros) ∧
      outputs 0x4000000 [0x00, 0x2A, 0x00, 0x7F, 0x00, 0x00, 0x61, 0x52] = some (0x00, 0x00, true, zeros) := by decide

/-- Program P4: a failed block leaves nothing behind. -/
theorem test_session_after_failure :
    (match session State.reset
        [⟨0x4000000, fun j => [0x00, 0x56, 0x00, 0x2A, 0x00, 0x7F].getD j 0⟩,
          ⟨0x4000000, fun j => [0x00, 0x55, 0x00, 0x2A, 0x00, 0x7F].getD j 0⟩] with
      | .next ts => ts.map fun t => t.response.map fun r => (r.res, r.res2, r.fail)
      | .fault _ => []
      | .refused _ => []) =
      [some (0x00, 0x00, true), some (0x05, 0x0A, false)] := by decide

/-- An operation placed by `withFetchWord` runs as the first transaction after reset. -/
theorem test_first_transaction :
    (match step (State.reset.withFetchWord 32 0x1000005) with
      | .next t => t.response.map Response.res
      | .fault _ => none
      | .refused _ => none) = some 0x55 := by decide

/-! ### Witnesses: concrete values that meet the hypotheses of the statements -/

/-- DecodeOfEncodeIsIdentity, StepRunsSelectedOperation. -/
theorem witness_width_and_selection : 27 ≤ 32 ∧ decodeWord State.reset.cmd = .csum 0 0 0 := by decide

/-- CommandFieldsSelectOperation: the least and the greatest word of each value of `OP`. -/
theorem witness_command_fields :
    [0x0000000#27, 0x1000000#27, 0x2000000#27, 0x3000000#27, 0x4000000#27, 0x5000000#27, 0x6000000#27,
        0x7000000#27].map (fun w => w.toNat / 2 ^ 24) = List.range 8 ∧
      [0x0FFFFFF#27, 0x1FFFFFF#27, 0x2FFFFFF#27, 0x3FFFFFF#27, 0x4FFFFFF#27, 0x5FFFFFF#27, 0x6FFFFFF#27,
        0x7FFFFFF#27].map (fun w => w.toNat / 2 ^ 24) = List.range 8 := by decide

/-- OnlyWiderWordsAreRefused: the least number refused and the greatest decoded. -/
theorem witness_wider_words : 2 ^ 27 ≤ 0x8000000 % 2 ^ 32 ∧ 0x7FFFFFF % 2 ^ 32 < 2 ^ 27 := by decide

/-- EveryRequestHasOneResponse: `FAIL = 1` from CHK. -/
theorem witness_fail_from_chk : outputs 0x3FFFFFF zeros = some (0x00, 0x00, true, zeros) := by decide

/-- OperationsLeaveInputsUnchanged and StepKeepsResponsesLawful: a step from reset answers a next state, and the
invariant holds there. -/
theorem witness_step_from_reset :
    ∃ t, exec (.csum 0 0 0) State.reset = .next t ∧ step State.reset = .next t ∧
      ∀ r, State.reset.response = some r → r.Lawful :=
  ⟨_, rfl, rfl, fun _ h => nomatch h⟩

/-- UnlistedFieldsIgnoredUnnamedOutputsZero: two operands of HENC with the same low nibble. -/
theorem witness_same_low_nibble : (0xF5#8).extractLsb' 0 4 = (0x05#8).extractLsb' 0 4 := by decide

/-- EncodeAnswersWireBlock, EncodeComposesHencAndCsum, RawBlockLayoutAndByteExpansion: the first and last byte and wire
indices of each clause for `N = 4`. -/
theorem witness_block_indices :
    (0 < 4 ∧ 1 < 4 ∧ 2 < 4 ∧ 3 < 4 ∧ 3 ≤ 3) ∧ (6 < 2 * 4 ∧ 6 ≤ 6) ∧ (7 < 2 * 4 ∧ 6 ≤ 7) := by decide

/-- WireBlockIsLinear: wire indices at the ends of each clause, and two pairs with one checksum. -/
theorem witness_wire_clauses :
    (1 < 2 ∧ 2 ≤ 2 ∧ 3 < 4 ∧ 4 ≤ 4 ∧ 5 < 6 ∧ 6 ≤ 6 ∧ 7 < 2 * 4) ∧ 0x05#8 ^^^ 0x0A#8 = 0x0F#8 ^^^ 0x00#8 := by decide

/-- DifferentMessagesDifferInTwoCodewords: two messages, and a codeword in which they differ. -/
theorem witness_different_messages :
    ((0x05#8, 0x0A#8) ≠ (0x05#8, 0x0B#8)) ∧
      (encodeBlock ⟨4, by decide⟩ 0x05 0x0A)[3] ≠ (encodeBlock ⟨4, by decide⟩ 0x05 0x0B)[3] := by decide

/-- ChkAnswersMismatch: a matching triple and a difference that is not zero; the first and last bit. -/
theorem witness_chk : chk 0x05 0x0A 0x0F = false ∧ 0x80#8 ≠ 0x00#8 ∧ 0 < 8 ∧ 7 < 8 := by decide

/-- DecodeAnswersPairOrFailure, DecodeFailsExactlyOnResidualDifference: a block of each outcome (`WIN[0 .. 5]` of the
spec's example, and with `W[1]` damaged). -/
theorem witness_decode_outcomes :
    byteDec 0x00 0x55 ^^^ byteDec 0x00 0x2A = byteDec 0x00 0x7F ∧
      byteDec 0x00 0x56 ^^^ byteDec 0x00 0x2A ≠ byteDec 0x00 0x7F := by decide

/-- CodewordPairsDecodeIndependently, MessageSurvivesOneFlipPerCodeword: masks of one meaningful bit, with bit 7, and
of none; two blocks of one length. -/
theorem witness_single_flips :
    meaningfulFlips 0xC0 ≤ 1 ∧ meaningfulFlips 0x01 ≤ 1 ∧ meaningfulFlips 0x80 ≤ 1 ∧ meaningfulFlips 0x00 ≤ 1 ∧
      (∀ j, j < 2 * State.reset.blockLength.val → meaningfulFlips ((fun _ => 0xC0#8 : Nat → Byte) j) ≤ 1) ∧
      (State.reset.withFetchWord 32 1).blockLength = State.reset.blockLength := by decide

/-- PaddingDamageIsInvisible: a block that differs from reset's in codewords 6 and 7 only. -/
theorem witness_padding_damage :
    ∀ (j : Nat) (h : j < 2 * State.reset.blockLength.val), j < 6 →
      (#v[0, 0, 0, 0, 0, 0, 3, 0x7F] : Vector Byte (2 * State.reset.blockLength.val))[j] = State.reset.win[j] := by
  decide

/-- DamagedCodewordAlwaysFails, DecoderFindsNearestCodeword: two flips; the first and last codeword covered. -/
theorem witness_double_flip : 2 ≤ meaningfulFlips 0x03 ∧ meaningfulFlips 0x03 = 2 ∧ 0 < 6 ∧ 5 < 6 ∧ 5 < 2 * 3 := by decide

/-- CorrectionTableIsTheOnlyOne: a table that meets the defining equation. -/
theorem witness_correction_table : cor 0 = 0 ∧ ∀ k, k < 7 → cor (syn (bitMask k)) = bitMask k := by decide

/-- HsynAnswersSyndrome, HcorAnswersCorrectedCodeword, HdecAnswersNibble, CodeHasDistanceThree, SingleFlipIsCorrected:
bytes of each case, and the last meaningful bit. -/
theorem witness_syndromes :
    syn 0x55 = 0 ∧ syn 0x54 ≠ 0 ∧ syn 0x15 = 1 ∧ syn 0x75 = 2 ∧ syn 0x45 = 4 ∧ hEnc 5 ≠ hEnc 6 ∧ 6 < 7 ∧ 3 ≤ 3 ∧ 4 ≤ 4 := by
  decide

/-- DecodeComposesHdecAndChk: reset's block decodes without failure. -/
theorem witness_decode_ok : decodeBlock State.reset.blockLength State.reset.win = .ok 0 0 := by decide

/-- ReorderedSessionsAgree: two different requests in both orders. -/
theorem witness_reordered :
    [Request.mk 0x0000A05 fun _ => 0, Request.mk 0x4000000 fun _ => 0xFF].Perm
      [Request.mk 0x4000000 fun _ => 0xFF, Request.mk 0x0000A05 fun _ => 0] := List.Perm.swap _ _ []

/-- FirstTransactionAfterResetIsLikeAnyOther: another state of reset's length, and a response of an earlier transaction
that is not the one the request gets. -/
theorem witness_same_length :
    (State.reset.withFetchWord 32 0x7000056).blockLength = State.reset.blockLength ∧
      State.reset.withFetchWord 32 0x7000056 ≠ State.reset ∧
      ((State.reset.respond { Response.zero _ with res := 0xAA, fail := true }).response.map Response.res) =
        some 0xAA := by decide

/-- OnlyWholeWireBlocksArePresented: a request that passes. -/
theorem witness_presented : (State.ofPorts 3 0x7FFFFFF (List.replicate 6 0x80)).isSome = true := by decide

end Sys2Proof.Tests
end

section
/-! SUPPORT. The command word of an instruction, as the decoder and the `CMD` port read it, and the step that runs it
(spec/00_scope.md R7; spec/10_state.md R25; spec/30_encoding.md R70, R71). -/

namespace Sys2Proof

/-- The decoder gives back the encoded instruction: bits 26 to 24 of its command word are the `OP` of its constructor,
and the three byte fields stand below them (R70, R71). -/
@[simp] theorem decodeWord_encode (i : Instr) : decodeWord (encode i) = i := by
  cases i <;> simp [encode, decodeWord, commandWord_getLsbD, Instr.opSelect, -BitVec.getLsbD_eq_getElem]

/-- A word placed at a width that holds it reaches `CMD` unchanged. -/
theorem commandOfBits_toNat {nbits : Nat} (hwidth : 27 ≤ nbits) (w : CmdWord) : commandOfBits nbits w.toNat = w := by
  have hfits : w.toNat < 2 ^ nbits := w.isLt.trans_le (Nat.pow_le_pow_right (by decide) hwidth)
  rw [commandOfBits, Nat.mod_eq_of_lt hfits, BitVec.ofNat_toNat, BitVec.setWidth_eq]

namespace Machine

/-- A step whose `CMD` selects `i` runs `i`. -/
theorem step_eq_exec_of_decodeWord {s : State} {i : Instr} (hsel : decodeWord s.cmd = i) : step s = exec i s := by
  rw [step_eq_exec, hsel]

/-- With the encoding of `i` placed on `CMD`, `CMD` selects `i`. -/
theorem decodeWord_cmd_withFetchWord_encode {nbits : Nat} (hwidth : 27 ≤ nbits) (s : State) (i : Instr) :
    decodeWord (s.withFetchWord nbits (encode i).toNat).cmd = i := by
  rw [State.withFetchWord_cmd, commandOfBits_toNat hwidth, decodeWord_encode]

/-- Settles O6: the step is the execution of the selected operation, and a placed encoding selects its instruction. -/
theorem stepRunsSelectedOperation : Obligations.StepRunsSelectedOperation :=
  ⟨fun _ _ hsel => step_eq_exec_of_decodeWord hsel,
    fun s i _ hwidth => step_eq_exec_of_decodeWord (decodeWord_cmd_withFetchWord_encode hwidth s i)⟩

end Machine

end Sys2Proof
end

section
/-! SUPPORT. The response of a request as a function of the operation, the block length and `WIN` alone, the frame of
every operation, and what reset leaves (spec/10_state.md R20, R22, R23, R27, R31). -/

namespace Sys2Proof.Machine

/-- The outputs operation `i` drives in a block of length `n` with the wire block `win` on its input. It is given no
`State`, so it cannot see an earlier response (R20). `exec_eq_answer` ties it to the model. -/
def responseOf (i : Instr) (n : BlockLength) (win : Vector Byte (2 * n.val)) : Response n :=
  match i with
  | .csum a b _ => { Response.zero n with res := csum a b }
  | .henc a _ _ => { Response.zero n with res := hEnc (nibbleOperand a) }
  | .encode a b _ => { Response.zero n with wout := encodeBlock n a b }
  | .chk a b c => { Response.zero n with fail := chk a b c }
  | .decode _ _ _ => (decodeBlock n win).toResponse n
  | .hsyn a _ _ => { Response.zero n with res := zextSyndrome (syn a) }
  | .hcor a _ _ => { Response.zero n with res := correct a }
  | .hdec a _ _ => { Response.zero n with res := zextNibble (hDec a) }

/-- Every operation answers, and with a response made from its fields, the block length and `WIN` (R20, R150). -/
theorem exec_eq_answer (i : Instr) (s : State) : exec i s = answer s (responseOf i s.blockLength s.win) := by
  cases i with
  | csum | henc | encode => rfl
  | chk | decode => rfl
  | hsyn | hcor | hdec => rfl

/-- All that an operation can do: the next state is the old one with the operation's response shown. -/
theorem exec_eq_next_iff {i : Instr} {s t : State} :
    exec i s = .next t ↔ t = s.respond (responseOf i s.blockLength s.win) := by
  rw [exec_eq_answer, answer_eq_next]

/-- All that a step can do: it shows the response of the operation on `CMD`. -/
theorem step_eq_next_iff {s t : State} :
    step s = .next t ↔ t = s.respond (responseOf (decodeWord s.cmd) s.blockLength s.win) := by
  rw [step_eq_exec, exec_eq_next_iff]

/-- Settles O8: the response of a step is `responseOf` of the request, in which the old response does not occur. -/
theorem responseDependsOnRequestAlone : Obligations.ResponseDependsOnRequestAlone :=
  fun s => ⟨responseOf (decodeWord s.cmd) s.blockLength s.win, fun _ => step_eq_next_iff.mpr rfl⟩

/-- Settles O9: the next state is `s.respond r`, and `respond` leaves the block length and the input ports. -/
theorem operationsLeaveInputsUnchanged : Obligations.OperationsLeaveInputsUnchanged := by
  intro i s t hexec
  obtain rfl := exec_eq_next_iff.mp hexec
  exact ⟨s.respond_blockLength _, s.respond_cmd _, congrArg Vector.toList (s.respond_win _), _, rfl⟩

@[simp] theorem State.reset_blockLength : State.reset.blockLength = Config.referenceLength := rfl

@[simp] theorem State.reset_cmd : State.reset.cmd = 0#27 := rfl

@[simp] theorem State.reset_win : State.reset.win = Vector.replicate _ 0#8 := rfl

@[simp] theorem State.reset_response : State.reset.response = none := rfl

/-- Settles O46, field by field of `State.reset`. -/
theorem resetLeavesNoResponse : Obligations.ResetLeavesNoResponse := by
  refine ⟨State.reset_response, congrArg Subtype.val State.reset_blockLength, State.reset_cmd, ?_⟩
  intro b hb
  rw [State.reset_win, Vector.toList_replicate] at hb
  exact List.eq_of_mem_replicate hb

/-- A state without a response keeps the invariant: there is nothing to be unlawful. -/
theorem State.inv_of_response_eq_none {s : State} (hnone : s.response = none) : s.Inv := by
  intro r hr
  rw [hnone] at hr
  cases hr

/-- Settles O48: reset leaves no response. -/
theorem resetResponseIsLawful : Obligations.ResetResponseIsLawful :=
  State.inv_of_response_eq_none State.reset_response

end Sys2Proof.Machine
end

section
/-! SUPPORT. Receiver mirrors sender, RawBlock byte by RawBlock byte (spec/20_memory.md R42;
spec/70_reset_and_hazards.md R181, R182). -/

namespace Sys2Proof.Machine

/-- A byte is its high nibble above its low nibble (R65, R66). -/
@[simp] theorem joinNibbles_highNibble_lowNibble (b : Byte) : joinNibbles (highNibble b) (lowNibble b) = b := by
  revert b; decide

/-- An undamaged codeword has syndrome zero, so the correction leaves it (R132, R133). -/
@[simp] theorem correct_hEnc (n : Nibble) : correct (hEnc n) = hEnc n := by
  revert n; decide

/-- The single-codeword decoder gives back the encoded nibble (R134). -/
@[simp] theorem hDec_hEnc (n : Nibble) : hDec (hEnc n) = n := by
  rw [hDec, correct_hEnc, lowNibble_hEnc]

/-- The two codewords of a byte decode to the byte (R93, R110). -/
@[simp] theorem byteDec_byteEnc (b : Byte) : byteDec (byteEnc b).1 (byteEnc b).2 = b := by
  simp [byteDec, byteEnc]

/-- Settles O22: byte `i` is sent on wire indices `2i` and `2i + 1`, and rebuilt from these two. -/
theorem rawBlockSurvivesTheWire : Obligations.RawBlockSurvivesTheWire := by
  intro n raw
  ext i hi : 1
  calc (rebuildRaw n (expandRaw n raw))[i]
      = byteDec ((expandRaw n raw)[2 * i]'(by omega)) ((expandRaw n raw)[2 * i + 1]'(by omega)) :=
        rebuildRaw_getElem n _ i hi
    _ = byteDec (byteEnc raw[i]).1 (byteEnc raw[i]).2 := by
        rw [expandRaw_even n raw i hi, expandRaw_odd n raw i hi]
    _ = raw[i] := byteDec_byteEnc raw[i]

end Sys2Proof.Machine
end

section
/-! SUPPORT. Which untyped ports the loader accepts: the converse of `State.ofPorts_eq_some` (spec/20_memory.md R44;
spec/30_encoding.md R77). -/

namespace Sys2Proof.Machine

/-- Ports that pass the three checks make a state. -/
theorem State.ofPorts_isSome {n cmd : Nat} {bytes : List Byte} (hlength : 3 ≤ n) (hblock : bytes.length = 2 * n)
    (hcmd : cmd < 2 ^ 27) : (State.ofPorts n cmd bytes).isSome = true := by
  have hn : blockLengthOk n = true := decide_eq_true hlength
  have hw : wireBlockOk n bytes = true := decide_eq_true hblock
  have hc : commandWordOk cmd = true := decide_eq_true hcmd
  simp [State.ofPorts, hn, hw, hc]

/-- Settles O42: a state the loader answers passed its three checks, and ports that pass them make a state. -/
theorem onlyWholeWireBlocksArePresented : Obligations.OnlyWholeWireBlocksArePresented := by
  intro n cmd bytes
  constructor
  · intro hsome
    obtain ⟨s, hs⟩ := Option.isSome_iff_exists.mp hsome
    obtain ⟨hlength, hblock, hcmd, -⟩ := State.ofPorts_eq_some hs
    exact ⟨hlength, hblock, hcmd⟩
  · rintro ⟨hlength, hblock, hcmd⟩
    exact State.ofPorts_isSome hlength hblock hcmd

end Sys2Proof.Machine
end

section
/-! SUPPORT. A transaction and a session in closed form: every request is served as if it stood alone
(spec/20_memory.md R50; spec/10_state.md R30). -/

namespace Sys2Proof.Machine

/-- The response a block of length `n` gives to a request; `transact_eq_next` ties it to the model. -/
def Request.responseAt (q : Request) (n : BlockLength) : Response n :=
  responseOf (decodeWord q.cmd) n (Vector.ofFn fun j => q.bytes j.val)

/-- A transaction completes, with the response its request has at the block's length (R30, R150). -/
theorem transact_eq_next (s : State) (q : Request) :
    transact s q = .next (s.served q (q.responseAt s.blockLength)) :=
  step_eq_next_iff.mpr rfl

/-- A state reached by serving a request serves the next one as the state before would. -/
@[simp] theorem State.served_served (s : State) (p q : Request) (r r' : Response s.blockLength) :
    (s.served p r).served q r' = s.served q r' := rfl

/-- A session completes, with the states its requests would give one by one from its first state (R50). -/
theorem session_eq_next (s : State) (qs : List Request) :
    session s qs = .next (qs.map fun q => s.served q (q.responseAt s.blockLength)) := by
  induction qs generalizing s with
  | nil => rfl
  | cons q qs ih =>
    have hrest := ih (s.served q (q.responseAt s.blockLength))
    simp only [State.served_blockLength, State.served_served] at hrest
    simp only [session, transact_eq_next, hrest, List.map_cons]

/-- Settles O43: the one response function is `Request.responseAt` at the block's length. -/
theorem sessionServesEachRequestAlone : Obligations.SessionServesEachRequestAlone :=
  fun s => ⟨fun q => q.responseAt s.blockLength, transact_eq_next s, session_eq_next s⟩

/-- Settles O44: a session maps one function over its requests, and a map keeps permutations and lengths. -/
theorem reorderedSessionsAgree : Obligations.ReorderedSessionsAgree :=
  fun s qs qs' hperm =>
    ⟨_, _, session_eq_next s qs, session_eq_next s qs', hperm.map _, List.length_map _⟩

end Sys2Proof.Machine
end

section
/-! SUPPORT. The decoder and the encoder are inverse to each other, the fields of a command word by arithmetic, and the
numbers the decoder refuses (spec/30_encoding.md R70, R71, R75, R77). -/

namespace Sys2Proof

/-- A command word is assembled from the fields it is cut into (R70). -/
theorem commandWord_fields (w : CmdWord) :
    commandWord (w.extractLsb' 24 3) (fieldC w) (fieldB w) (fieldA w) = w := by
  apply BitVec.eq_of_getLsbD_eq
  intro i hi
  rw [commandWord_getLsbD, fieldA, fieldB, fieldC]
  simp only [BitVec.getLsbD_extractLsb']
  split_ifs with hA hB hC
  · simp [hA]
  · simp [show i - 8 < 8 by omega, show 8 + (i - 8) = i by omega]
  · simp [show i - 16 < 8 by omega, show 16 + (i - 16) = i by omega]
  · simp [show i - 24 < 3 by omega, show 24 + (i - 24) = i by omega]

/-- `OP` is fully assigned: whatever the fields, their command word encodes an instruction (R71, R75). -/
theorem exists_encode_eq_commandWord (op : OpSelect) (c b a : Byte) :
    ∃ i : Instr, encode i = commandWord op c b a := by
  have hop : op = 0#3 ∨ op = 1#3 ∨ op = 2#3 ∨ op = 3#3 ∨ op = 4#3 ∨ op = 5#3 ∨ op = 6#3 ∨ op = 7#3 := by
    revert op; decide
  obtain rfl | rfl | rfl | rfl | rfl | rfl | rfl | rfl := hop
  · exact ⟨.csum a b c, rfl⟩
  · exact ⟨.henc a b c, rfl⟩
  · exact ⟨.encode a b c, rfl⟩
  · exact ⟨.chk a b c, rfl⟩
  · exact ⟨.decode a b c, rfl⟩
  · exact ⟨.hsyn a b c, rfl⟩
  · exact ⟨.hcor a b c, rfl⟩
  · exact ⟨.hdec a b c, rfl⟩

/-- No command word is illegal: each one encodes an instruction (R75). -/
theorem encode_surjective : Function.Surjective encode := fun w =>
  commandWord_fields w ▸ exists_encode_eq_commandWord ..

/-- The encoder gives back the decoded word: it is onto, and the decoder undoes it. -/
@[simp] theorem encode_decodeWord (w : CmdWord) : encode (decodeWord w) = w :=
  Function.LeftInverse.rightInverse_of_surjective decodeWord_encode encode_surjective w

/-- A word decodes to an instruction exactly when it is that instruction's command word. -/
theorem decodeWord_eq_iff {w : CmdWord} {i : Instr} : decodeWord w = i ↔ w = encode i :=
  ⟨fun h => h ▸ (encode_decodeWord w).symm, fun h => h ▸ decodeWord_encode i⟩

/-- The `len` bits of a command word from bit `start` on, by division. -/
theorem extractLsb'_eq_ofNat_div (w : CmdWord) (start len : Nat) :
    w.extractLsb' start len = BitVec.ofNat len (w.toNat / 2 ^ start) := by
  rw [← Nat.shiftRight_eq_div_pow]; rfl

/-- A command word is assembled from its fields, each by arithmetic (R70). -/
theorem commandWord_arithmetic (w : CmdWord) :
    commandWord (BitVec.ofNat 3 (w.toNat / 2 ^ 24)) (BitVec.ofNat 8 (w.toNat / 2 ^ 16))
      (BitVec.ofNat 8 (w.toNat / 2 ^ 8)) (BitVec.ofNat 8 w.toNat) = w := by
  have hfields := commandWord_fields w
  rw [fieldA, fieldB, fieldC] at hfields
  simpa only [extractLsb'_eq_ofNat_div, pow_zero, Nat.div_one] using hfields

/-- A word with the operation select and the byte fields of an instruction decodes to it (R70, R71). -/
theorem decodeWord_eq_of_fields {w : CmdWord} {i : Instr} {k : Nat} (hop : w.toNat / 2 ^ 24 = k)
    (hfields : encode i = commandWord (BitVec.ofNat 3 k) (BitVec.ofNat 8 (w.toNat / 2 ^ 16))
      (BitVec.ofNat 8 (w.toNat / 2 ^ 8)) (BitVec.ofNat 8 w.toNat)) :
    decodeWord w = i := by
  rw [decodeWord_eq_iff, hfields, ← hop, commandWord_arithmetic]

/-- A number that fits 27 bits is decoded as a command word (R75). -/
theorem decodeCommand_of_lt {w : Nat} (hfits : w < 2 ^ 27) : decodeCommand w = .ok (decodeWord (BitVec.ofNat 27 w)) :=
  if_pos (decide_eq_true hfits)

/-- A wider number is refused by name (R77; log 5). -/
theorem decodeCommand_of_le {w : Nat} (hwide : 2 ^ 27 ≤ w) : decodeCommand w = .error .notACommandWord :=
  if_neg (by simpa [commandWordOk] using hwide)

/-- A command word read at a width that holds it is decoded as it stands on `CMD`. -/
theorem decodeTableWord_toNat {nbits : Nat} (hwidth : 27 ≤ nbits) (w : CmdWord) :
    decodeTableWord nbits w.toNat = some (decodeWord w) := by
  have hfits : w.toNat < 2 ^ nbits := w.isLt.trans_le (Nat.pow_le_pow_right (by decide) hwidth)
  rw [decodeTableWord, Nat.mod_eq_of_lt hfits, decodeCommand_of_lt w.isLt, BitVec.ofNat_toNat, BitVec.setWidth_eq]
  rfl

/-- The table's decoder refuses exactly the numbers that do not fit 27 bits (R77; log 5). -/
theorem decodeTableWord_eq_none_iff (nbits w : Nat) : decodeTableWord nbits w = none ↔ 2 ^ 27 ≤ w % 2 ^ nbits := by
  rw [decodeTableWord]
  obtain hfits | hwide := Nat.lt_or_ge (w % 2 ^ nbits) (2 ^ 27)
  · rw [decodeCommand_of_lt hfits]
    exact iff_of_false (Option.some_ne_none _) hfits.not_ge
  · rw [decodeCommand_of_le hwide]
    exact iff_of_true rfl hwide

/-- Settles O1: the command word decodes to its instruction, and as a number at any width that holds it reads the
same. -/
theorem decodeOfEncodeIsIdentity : Obligations.DecodeOfEncodeIsIdentity := fun i =>
  ⟨decodeWord_encode i, fun _ hwidth => by rw [decodeTableWord_toNat hwidth, decodeWord_encode]⟩

/-- Settles O2. -/
theorem encodeOfDecodeIsIdentity : Obligations.EncodeOfDecodeIsIdentity := encode_decodeWord

/-- Settles O3: a word is assembled from its fields by arithmetic, and so is the encoding of each operation. -/
theorem commandFieldsSelectOperation : Obligations.CommandFieldsSelectOperation := by
  intro w a b c op
  have hop : op < 8 := Nat.div_lt_of_lt_mul w.isLt
  refine ⟨hop, ?_, ?_, ?_, ?_, ?_, ?_, ?_, ?_⟩ <;> exact fun h => decodeWord_eq_of_fields h rfl

/-- Settles O4. -/
theorem onlyWiderWordsAreRefused : Obligations.OnlyWiderWordsAreRefused := fun nbits w =>
  ⟨decodeTableWord_eq_none_iff nbits w, decodeCommand_of_le, decodeCommand_of_lt⟩

/-- Settles O5: each word is the encoding of the instruction of its row. -/
theorem vectorWordsDecode : Obligations.VectorWordsDecode := by
  simp only [Obligations.VectorWordsDecode, decodeWord_eq_iff]
  decide

end Sys2Proof
end

section
/-! SUPPORT. The halves of a byte by shift and mask, and a byte from its halves (spec/30_encoding.md R65, R66). -/

namespace Sys2Proof.Machine

/-- The high nibble, zero-extended, is the byte shifted (R65). -/
theorem setWidth_highNibble (b : Byte) : (highNibble b).setWidth 8 = b >>> 4 := by
  apply BitVec.eq_of_getLsbD_eq
  intro k hk
  rw [BitVec.getLsbD_setWidth, highNibble, BitVec.getLsbD_extractLsb', BitVec.getLsbD_ushiftRight]
  obtain hlow | hhigh := Nat.lt_or_ge k 4
  · simp [hk, hlow]
  · simp [hhigh.not_gt, BitVec.getLsbD_of_ge b (4 + k) (by omega)]

/-- The low nibble, zero-extended, is the byte masked (R65). -/
theorem setWidth_lowNibble (b : Byte) : (lowNibble b).setWidth 8 = b &&& 0x0F#8 := by
  revert b; decide

theorem getLsbD_highNibble (b : Byte) {k : Nat} (hk : k < 4) : (highNibble b).getLsbD k = b.getLsbD (k + 4) := by
  rw [highNibble, BitVec.getLsbD_extractLsb', Nat.add_comm]
  simp [hk]

theorem getLsbD_lowNibble (b : Byte) {k : Nat} (hk : k < 4) : (lowNibble b).getLsbD k = b.getLsbD k := by
  rw [lowNibble, BitVec.getLsbD_extractLsb', Nat.zero_add]
  simp [hk]

/-- The low nibble of a byte shifted down is its high nibble. -/
theorem lowNibble_ushiftRight (b : Byte) : lowNibble (b >>> 4) = highNibble b := by
  apply BitVec.eq_of_getLsbD_eq
  intro k hk
  rw [getLsbD_lowNibble _ hk, getLsbD_highNibble _ hk, BitVec.getLsbD_ushiftRight, Nat.add_comm]

/-- The two terms of the recombination do not overlap (R66). -/
theorem shiftLeft_and_setWidth_eq_zero (h l : Nibble) : (h.setWidth 8 <<< 4) &&& l.setWidth 8 = 0x00#8 := by
  revert h l; decide

/-- Recombination is concatenation: "that is `{h, l}`" (R66). -/
theorem joinNibbles_eq_append (h l : Nibble) : joinNibbles h l = h ++ l := by
  revert h l; decide

@[simp] theorem highNibble_joinNibbles (h l : Nibble) : highNibble (joinNibbles h l) = h := by
  rw [joinNibbles_eq_append]
  exact BitVec.extractLsb'_append_eq_left

@[simp] theorem lowNibble_joinNibbles (h l : Nibble) : lowNibble (joinNibbles h l) = l := by
  rw [joinNibbles_eq_append]
  exact BitVec.extractLsb'_append_eq_right

/-- Settles O36: the two halves by shift, mask and bits, and their recombination. -/
theorem bytesSplitAndRecombine : Obligations.BytesSplitAndRecombine :=
  ⟨fun b => ⟨setWidth_highNibble b, setWidth_lowNibble b,
      fun _ hk => ⟨getLsbD_highNibble b hk, getLsbD_lowNibble b hk⟩⟩,
    fun h l => ⟨rfl, shiftLeft_and_setWidth_eq_zero h l, highNibble_joinNibbles h l, lowNibble_joinNibbles h l⟩,
    rfl, rfl, rfl⟩

end Sys2Proof.Machine
end

section
/-! SUPPORT. The 16 valid codewords: the range of the encoder, the bytes that pass every check, and a linear code of
minimum weight 3 (spec/30_encoding.md R62, R63, R64). -/

namespace Sys2Proof.Machine

/-- The listed table is the encoder's, nibble by nibble (R64). -/
theorem encTable_toList_eq_map :
    encTable.toList = (List.finRange 16).map fun i => hEnc (BitVec.ofFin i) := by decide

/-- The listed codewords are those the encoder answers (R64). -/
theorem validCodeword_iff_exists_hEnc (x : Byte) : validCodeword x = true ↔ ∃ n : Nibble, x = hEnc n := by
  rw [validCodeword, List.contains_iff_mem, encTable_toList_eq_map, List.mem_map]
  constructor
  · rintro ⟨i, -, rfl⟩
    exact ⟨BitVec.ofFin i, rfl⟩
  · rintro ⟨n, rfl⟩
    exact ⟨n.toFin, List.mem_finRange _, rfl⟩

@[simp] theorem validCodeword_hEnc (n : Nibble) : validCodeword (hEnc n) = true :=
  (validCodeword_iff_exists_hEnc _).mpr ⟨n, rfl⟩

/-- The encoder leaves bit 7 clear (R60, R73). -/
@[simp] theorem hEnc_getLsbD_seven (n : Nibble) : (hEnc n).getLsbD 7 = false := by
  revert n; decide

/-- P1 stands in bit 6 (R61, R62). -/
@[simp] theorem hEnc_getLsbD_six (n : Nibble) :
    (hEnc n).getLsbD 6 = (n.getLsbD 0 ^^ n.getLsbD 1 ^^ n.getLsbD 3) := by
  revert n; decide

/-- P2 stands in bit 5 (R61, R62). -/
@[simp] theorem hEnc_getLsbD_five (n : Nibble) :
    (hEnc n).getLsbD 5 = (n.getLsbD 0 ^^ n.getLsbD 2 ^^ n.getLsbD 3) := by
  revert n; decide

/-- P3 stands in bit 4 (R61, R62). -/
@[simp] theorem hEnc_getLsbD_four (n : Nibble) :
    (hEnc n).getLsbD 4 = (n.getLsbD 1 ^^ n.getLsbD 2 ^^ n.getLsbD 3) := by
  revert n; decide

/-- The data bits stand in bits 3 to 0 (R61). -/
theorem hEnc_getLsbD_of_lt (n : Nibble) {k : Nat} (hk : k < 4) : (hEnc n).getLsbD k = n.getLsbD k := by
  rw [← getLsbD_lowNibble _ hk, lowNibble_hEnc]

/-- The encoder makes every check even: each parity bit cancels the data bits of its subset (R62, R63). -/
@[simp] theorem checkBit_hEnc (k : Check) (n : Nibble) : checkBit k (hEnc n) = false := by
  have hdata (j : Nat) (hj : j < 4) := hEnc_getLsbD_of_lt n hj
  cases k with
  | c1 => rw [checkBit_c1, hEnc_getLsbD_six, hdata 3, hdata 1, hdata 0] <;> grind
  | c2 => rw [checkBit_c2, hEnc_getLsbD_five, hdata 3, hdata 2, hdata 0] <;> grind
  | c3 => rw [checkBit_c3, hEnc_getLsbD_four, hdata 3, hdata 2, hdata 1] <;> grind

/-- A byte is the encoding of its low nibble when bit 7 is clear and every check is even: each check then gives the
parity bit it covers from the data bits (R62, R63). -/
theorem eq_hEnc_lowNibble_of_checks {x : Byte} (hbit7 : x.getLsbD 7 = false) (hchecks : ∀ k, checkBit k x = false) :
    x = hEnc (lowNibble x) := by
  have h1 := checkBit_c1 x ▸ hchecks .c1
  have h2 := checkBit_c2 x ▸ hchecks .c2
  have h3 := checkBit_c3 x ▸ hchecks .c3
  have hdata (j : Nat) (hj : j < 4) := getLsbD_lowNibble x hj
  apply BitVec.eq_of_getLsbD_eq
  intro i hi
  obtain hlow | rfl | rfl | rfl | rfl : i < 4 ∨ i = 4 ∨ i = 5 ∨ i = 6 ∨ i = 7 := by omega
  · rw [hEnc_getLsbD_of_lt _ hlow, getLsbD_lowNibble _ hlow]
  · rw [hEnc_getLsbD_four, hdata 1, hdata 2, hdata 3] <;> grind
  · rw [hEnc_getLsbD_five, hdata 0, hdata 2, hdata 3] <;> grind
  · rw [hEnc_getLsbD_six, hdata 0, hdata 1, hdata 3] <;> grind
  · rw [hbit7, hEnc_getLsbD_seven]

/-- The code is linear: the encoder commutes with `xor` (R64). -/
theorem hEnc_xor (m n : Nibble) : hEnc (m ^^^ n) = hEnc m ^^^ hEnc n := by
  revert m n; decide

/-- The minimum weight of the code is 3 (R64). -/
theorem three_le_meaningfulFlips_hEnc {n : Nibble} (hn : n ≠ 0#4) : 3 ≤ meaningfulFlips (hEnc n) := by
  revert n; decide

/-- A byte is a valid codeword exactly when bit 7 is clear and every check is even (R64). -/
theorem validCodeword_iff_checks (x : Byte) :
    validCodeword x = true ↔ x.getLsbD 7 = false ∧ ∀ k : Check, checkBit k x = false := by
  rw [validCodeword_iff_exists_hEnc]
  constructor
  · rintro ⟨n, rfl⟩
    exact ⟨hEnc_getLsbD_seven n, fun k => checkBit_hEnc k n⟩
  · rintro ⟨hbit7, hchecks⟩
    exact ⟨lowNibble x, eq_hEnc_lowNibble_of_checks hbit7 hchecks⟩

/-- Different codewords differ in at least 3 meaningful bits: by linearity their difference is a codeword, and it is
not zero (R64). -/
theorem three_le_meaningfulFlips_hEnc_xor {m n : Nibble} (hne : m ≠ n) :
    3 ≤ meaningfulFlips (hEnc m ^^^ hEnc n) := by
  rw [← hEnc_xor]
  exact three_le_meaningfulFlips_hEnc (mt BitVec.xor_eq_zero_iff.mp hne)

/-- The columns of the meaningful bits are distinct (R63). -/
theorem column_injOn : ∀ j < 7, ∀ k < 7, column j = column k → j = k := by decide

/-- No column of a meaningful bit is zero (R63). -/
theorem column_ne_zero : ∀ k < 7, column k ≠ 0#3 := by decide

/-- Settles O34. -/
theorem codeHasDistanceThree : Obligations.CodeHasDistanceThree :=
  ⟨validCodeword_iff_checks, validCodeword_iff_exists_hEnc,
    fun m n => ⟨three_le_meaningfulFlips_hEnc_xor, hEnc_xor m n ▸ validCodeword_hEnc (m ^^^ n)⟩,
    fun j k hj hk => ⟨column_injOn j hj k hk, column_ne_zero k hk⟩, by decide⟩

end Sys2Proof.Machine
end

section
/-! SUPPORT. Bit 7 of a received codeword: no check covers it, so it changes no syndrome and no decoded value
(spec/30_encoding.md R60, R73). -/

namespace Sys2Proof.Machine

/-- Inverting bit 7 leaves the bits below it. -/
theorem getLsbD_xor_bitSeven (x : Byte) {k : Nat} (hk : k < 7) : (x ^^^ 0x80#8).getLsbD k = x.getLsbD k := by
  have hmask : ∀ k < 7, (0x80#8).getLsbD k = false := by decide
  rw [BitVec.getLsbD_xor, hmask k hk, Bool.xor_false]

/-- No check covers bit 7 (R63). -/
@[simp] theorem checkBit_xor_bitSeven (k : Check) (x : Byte) : checkBit k (x ^^^ 0x80#8) = checkBit k x := by
  have hbit (j : Nat) (hj : j < 7) := getLsbD_xor_bitSeven x hj
  cases k with
  | c1 => rw [checkBit_c1, checkBit_c1, hbit 6, hbit 3, hbit 1, hbit 0] <;> decide
  | c2 => rw [checkBit_c2, checkBit_c2, hbit 5, hbit 3, hbit 2, hbit 0] <;> decide
  | c3 => rw [checkBit_c3, checkBit_c3, hbit 4, hbit 3, hbit 2, hbit 1] <;> decide

/-- Bit 7 does not change the syndrome (R73). -/
@[simp] theorem syn_xor_bitSeven (x : Byte) : syn (x ^^^ 0x80#8) = syn x := by
  simp [syn]

/-- Bit 7 passes through the correction (R73, R133). -/
@[simp] theorem correct_xor_bitSeven (x : Byte) : correct (x ^^^ 0x80#8) = correct x ^^^ 0x80#8 := by
  rw [correct, correct, syn_xor_bitSeven, BitVec.xor_assoc, BitVec.xor_comm 0x80#8, ← BitVec.xor_assoc]

/-- Bit 7 is not in the low nibble. -/
@[simp] theorem lowNibble_xor_bitSeven (x : Byte) : lowNibble (x ^^^ 0x80#8) = lowNibble x := by
  apply BitVec.eq_of_getLsbD_eq
  intro k hk
  rw [getLsbD_lowNibble _ hk, getLsbD_lowNibble _ hk, getLsbD_xor_bitSeven x (by omega)]

/-- Bit 7 does not change the decoded nibble (R73). -/
@[simp] theorem hDec_xor_bitSeven (x : Byte) : hDec (x ^^^ 0x80#8) = hDec x := by
  simp [hDec]

/-- Nor does it when it is inverted under a condition only. -/
theorem hDec_ite_xor_bitSeven (p : Prop) [Decidable p] (x : Byte) : hDec (if p then x ^^^ 0x80#8 else x) = hDec x := by
  split
  · exact hDec_xor_bitSeven x
  · rfl

/-- DECODE sees of a wire block the nibbles its codewords decode to, and nothing else. -/
theorem decodeBlock_congr {n : BlockLength} {v w : Vector Byte (2 * n.val)}
    (hnibbles : ∀ (j : Nat) (h : j < 2 * n.val), hDec v[j] = hDec w[j]) : decodeBlock n v = decodeBlock n w := by
  have hbytes : rebuildRaw n v = rebuildRaw n w := by
    ext i hi : 1
    rw [rebuildRaw_getElem n v i hi, rebuildRaw_getElem n w i hi, byteDec, byteDec, hnibbles, hnibbles]
  rw [decodeBlock, decodeBlock, hbytes]

/-- Settles O35: bit 7 changes no syndrome and no decoded nibble, and it passes through the correction. -/
theorem bitSevenIsIgnored : Obligations.BitSevenIsIgnored := by
  intro s a b c m flip s'
  have hdecode : decodeBlock s'.blockLength s'.win = decodeBlock s.blockLength s.win := by
    refine decodeBlock_congr fun j h => ?_
    simp only [s', flip, Vector.getElem_ofFn, hDec_ite_xor_bitSeven]
  refine ⟨⟨_, exec_eq_answer .., hEnc_getLsbD_seven _⟩,
    ⟨_, exec_eq_answer .., ?_⟩, ⟨_, exec_eq_answer .., ?_⟩,
    ⟨_, _, exec_eq_answer .., exec_eq_answer .., correct_xor_bitSeven a⟩, ⟨_, exec_eq_answer .., ?_⟩⟩
  · rw [exec_eq_answer, responseOf, syn_xor_bitSeven]; rfl
  · rw [exec_eq_answer, responseOf, hDec_xor_bitSeven]; rfl
  · rw [exec_eq_answer, responseOf, hdecode]; rfl

end Sys2Proof.Machine
end

section
/-! SUPPORT. What each operation ignores and which outputs it leaves zero, row by row of the table of operations
(spec/30_encoding.md R71, R72). -/

namespace Sys2Proof.Machine

/-- DECODE drives no wire block (R71, R72). -/
@[simp] theorem Decoded.toResponse_wout (n : BlockLength) (d : Decoded) :
    (d.toResponse n).wout = Vector.replicate _ 0x00#8 := by
  cases d with
  | ok t d => rfl
  | fail => rfl

/-- Settles O10: each operation's response names the fields it reads, and is the zero response elsewhere. -/
theorem unlistedFieldsIgnoredUnnamedOutputsZero : Obligations.UnlistedFieldsIgnoredUnnamedOutputsZero := by
  intro s w a b c a' b' c' s' zeros both
  have hsame {i i' : Instr} (h : responseOf i' s.blockLength w = responseOf i s.blockLength s.win) :
      both i i' (responseOf i s.blockLength s.win) :=
    ⟨exec_eq_answer i s, h ▸ exec_eq_answer i' s'⟩
  have hhenc (hlow : a'.extractLsb' 0 4 = a.extractLsb' 0 4) : nibbleOperand a' = nibbleOperand a := hlow
  refine ⟨⟨_, hsame rfl, rfl, rfl, rfl⟩,
    ⟨_, fun hlow => hsame ?_, exec_eq_answer .., rfl, rfl, rfl⟩,
    ⟨_, hsame rfl, rfl, rfl, rfl⟩, ⟨_, hsame rfl, rfl, rfl, rfl⟩,
    ⟨_, exec_eq_answer .., exec_eq_answer .., Decoded.toResponse_wout _ _⟩,
    ⟨_, hsame rfl, rfl, rfl, rfl⟩, ⟨_, hsame rfl, rfl, rfl, rfl⟩, ⟨_, hsame rfl, rfl, rfl, rfl⟩⟩
  rw [responseOf, responseOf, hhenc hlow]

end Sys2Proof.Machine
end

section
/-! SUPPORT. ENCODE by HENC and CSUM, and DECODE by HDEC and CHK (spec/30_encoding.md R71, R79). -/

namespace Sys2Proof.Machine

/-- Byte `i` of the RawBlock as a chain of cases (R94). -/
theorem rawByte_eq_ite (t d : Byte) (i : Nat) :
    rawByte t d i = if i = 0 then t else if i = 1 then d else if i = 2 then csum t d else 0x00#8 := by
  match i with
  | 0 | 1 | 2 => rfl
  | i + 3 => simp [rawByte, padByte]

/-- The wire block holds the high nibble's codeword of RawBlock byte `i` at `2i` (R42, R95). -/
theorem encodeBlock_even (n : BlockLength) (t d : Byte) (i : Nat) (h : i < n.val) :
    (encodeBlock n t d)[2 * i]'(by omega) = hEnc (highNibble (rawByte t d i)) := by
  rw [encodeBlock, expandRaw_even n _ i h, mkRaw_getElem, byteEnc]

/-- The wire block holds the low nibble's codeword of RawBlock byte `i` at `2i + 1` (R42, R95). -/
theorem encodeBlock_odd (n : BlockLength) (t d : Byte) (i : Nat) (h : i < n.val) :
    (encodeBlock n t d)[2 * i + 1]'(by omega) = hEnc (lowNibble (rawByte t d i)) := by
  rw [encodeBlock, expandRaw_odd n _ i h, mkRaw_getElem, byteEnc]

/-- Settles O39: HENC of a RawBlock byte answers its low nibble's codeword, of the byte shifted down its high
nibble's. -/
theorem encodeComposesHencAndCsum : Obligations.EncodeComposesHencAndCsum := by
  intro s t d c
  refine ⟨_, _, exec_eq_answer .., exec_eq_answer .., ?_⟩
  intro i h x
  have hx : rawByte t d i = x := rawByte_eq_ite t d i
  refine ⟨_, _, exec_eq_answer .., ?_, exec_eq_answer .., ?_⟩
  · calc (encodeBlock s.blockLength t d)[2 * i]'(by omega)
        = hEnc (highNibble x) := hx ▸ encodeBlock_even s.blockLength t d i h
      _ = hEnc (nibbleOperand (x >>> 4)) := by rw [nibbleOperand, lowNibble_ushiftRight]
  · exact hx ▸ encodeBlock_odd s.blockLength t d i h

/-- Settles O40: the three bytes are those of the rebuilt RawBlock, and DECODE checks them as CHK does. -/
theorem decodeComposesHdecAndChk : Obligations.DecodeComposesHdecAndChk := by
  intro s a b c
  have hlength : 3 ≤ s.blockLength.val := s.blockLength.property
  let x : Fin 3 → Byte := fun i => (rebuildRaw s.blockLength s.win)[i.val]
  have hdecode : decodeBlock s.blockLength s.win = if chk (x 0) (x 1) (x 2) then .fail else .ok (x 0) (x 1) := rfl
  refine ⟨_, _, x, fun i => ⟨_, _, exec_eq_answer .., exec_eq_answer .., ?_⟩,
    exec_eq_answer .., exec_eq_answer .., ?_⟩
  · exact rebuildRaw_getElem s.blockLength s.win i.val (by omega)
  · simp only [responseOf, hdecode]
    cases hchk : chk (x 0) (x 1) (x 2) <;> simp

end Sys2Proof.Machine
end

section
/-! SUPPORT. The checksum bit by bit and nibble by nibble, and CSUM (spec/40_encode_path.md R91). -/

namespace Sys2Proof.Machine

/-- Equal operands cancel (R91). -/
@[simp] theorem csum_self (t : Byte) : csum t t = 0x00#8 := BitVec.xor_self

/-- A zero operand is neutral (R91). -/
@[simp] theorem csum_zero (t : Byte) : csum t 0x00#8 = t := BitVec.xor_zero

theorem csum_comm (t d : Byte) : csum t d = csum d t := BitVec.xor_comm t d

/-- No carry: bit `k` of the checksum is made from the bits `k` (R91). -/
theorem getLsbD_csum (t d : Byte) (k : Nat) : (csum t d).getLsbD k = (t.getLsbD k ^^ d.getLsbD k) :=
  BitVec.getLsbD_xor

/-- The high half of a byte is taken bit by bit, so it commutes with `xor` (R65). -/
theorem highNibble_xor (x y : Byte) : highNibble (x ^^^ y) = highNibble x ^^^ highNibble y := by
  apply BitVec.eq_of_getLsbD_eq
  intro k hk
  simp only [BitVec.getLsbD_xor, getLsbD_highNibble _ hk]

/-- So does the low half. -/
theorem lowNibble_xor (x y : Byte) : lowNibble (x ^^^ y) = lowNibble x ^^^ lowNibble y := by
  apply BitVec.eq_of_getLsbD_eq
  intro k hk
  simp only [BitVec.getLsbD_xor, getLsbD_lowNibble _ hk]

/-- Settles O11: CSUM's response, its encoding, and the checksum's corner cases. -/
theorem csumAnswersXorChecksum : Obligations.CsumAnswersXorChecksum :=
  ⟨fun s a b c => ⟨_, exec_eq_answer (.csum a b c) s, rfl, rfl, rfl⟩,
    fun a b c => decodeWord_encode (.csum a b c),
    fun t d => ⟨csum_self t, csum_zero t, csum_comm t d, getLsbD_csum t d, highNibble_xor t d, lowNibble_xor t d⟩,
    rfl, rfl⟩

end Sys2Proof.Machine
end

section
/-! SUPPORT. The encoder is injective and has the listed table, and HENC (spec/40_encode_path.md R92). -/

namespace Sys2Proof.Machine

/-- Different nibbles have different codewords, since the decoder tells them apart (R92). -/
theorem hEnc_injective : Function.Injective hEnc := Function.LeftInverse.injective hDec_hEnc

/-- The nibble 0 has the zero codeword (R92). -/
@[simp] theorem hEnc_zero : hEnc 0#4 = 0x00#8 := rfl

/-- The codeword of a nibble is its entry in the table `ENC` (R64, R92). -/
theorem hEnc_eq_encTable (n : Nibble) : hEnc n = encTable[n.toNat] := by
  revert n; decide

/-- HENC's codeword, bit by bit from the bits of `A` (R92). -/
theorem hEnc_nibbleOperand_bits (a : Byte) :
    (hEnc (nibbleOperand a)).getLsbD 7 = false ∧
    (hEnc (nibbleOperand a)).getLsbD 6 = (a.getLsbD 0 ^^ a.getLsbD 1 ^^ a.getLsbD 3) ∧
    (hEnc (nibbleOperand a)).getLsbD 5 = (a.getLsbD 0 ^^ a.getLsbD 2 ^^ a.getLsbD 3) ∧
    (hEnc (nibbleOperand a)).getLsbD 4 = (a.getLsbD 1 ^^ a.getLsbD 2 ^^ a.getLsbD 3) ∧
    ∀ k < 4, (hEnc (nibbleOperand a)).getLsbD k = a.getLsbD k := by
  have hbit (k : Nat) (hk : k < 4) : (nibbleOperand a).getLsbD k = a.getLsbD k := getLsbD_lowNibble a hk
  have h0 := hbit 0 (by decide)
  have h1 := hbit 1 (by decide)
  have h2 := hbit 2 (by decide)
  have h3 := hbit 3 (by decide)
  refine ⟨hEnc_getLsbD_seven _, ?_, ?_, ?_, fun k hk => ?_⟩
  · rw [hEnc_getLsbD_six, h0, h1, h3]
  · rw [hEnc_getLsbD_five, h0, h2, h3]
  · rw [hEnc_getLsbD_four, h1, h2, h3]
  · rw [hEnc_getLsbD_of_lt _ hk, hbit k hk]

/-- Settles O12: HENC's response bit by bit, its encoding, and the encoder's corner cases. -/
theorem hencAnswersCodeword : Obligations.HencAnswersCodeword := by
  refine ⟨fun s a b c => ⟨_, exec_eq_answer (.henc a b c) s, rfl, ?_⟩,
    fun a b c => decodeWord_encode (.henc a b c),
    fun m n => ⟨fun h => hEnc_injective h, hEnc_xor m n, hEnc_getLsbD_seven n, lowNibble_hEnc n,
      hEnc_eq_encTable n⟩,
    fun s b c b' c' => ⟨_, exec_eq_answer (.henc 0xF5 b c) s, exec_eq_answer (.henc 0x05 b' c') s⟩,
    hEnc_zero, rfl, rfl⟩
  obtain ⟨h7, h6, h5, h4, hdata⟩ := hEnc_nibbleOperand_bits a
  exact ⟨h7, h6, h5, h4, hdata 3 (by decide), hdata 2 (by decide), hdata 1 (by decide), hdata 0 (by decide), rfl⟩

end Sys2Proof.Machine
end

section
/-! SUPPORT. The RawBlock of a message byte by byte, and the wire block codeword by codeword
(spec/40_encode_path.md R93 to R97). -/

namespace Sys2Proof.Machine

/-- From index 3 on the RawBlock is padding, which the spec decides to be zero (R94; D6, log 7). -/
theorem rawByte_of_three_le (t d : Byte) {i : Nat} (hi : 3 ≤ i) : rawByte t d i = 0x00#8 := by
  rw [rawByte_eq_ite, if_neg (by omega), if_neg (by omega), if_neg (by omega)]

/-- Settles O38. -/
theorem rawBlockLayoutAndByteExpansion : Obligations.RawBlockLayoutAndByteExpansion := by
  refine ⟨fun _ => rfl, fun n t d i h => ?_, rfl, rfl, rfl⟩
  rw [mkRaw_getElem]
  exact ⟨by rintro rfl; rfl, by rintro rfl; rfl, by rintro rfl; rfl, rawByte_of_three_le t d⟩

/-- Every byte of the RawBlock is linear in the message: the checksum is an `xor`, and the padding is zero (R94,
R97). -/
theorem rawByte_xor (t1 d1 t2 d2 : Byte) (i : Nat) :
    rawByte (t1 ^^^ t2) (d1 ^^^ d2) i = rawByte t1 d1 i ^^^ rawByte t2 d2 i := by
  match i with
  | 0 | 1 => rfl
  | 2 => simp only [rawByte, csum]; ac_rfl
  | _ + 3 => simp only [rawByte, padByte, BitVec.xor_zero]

/-- Of the three bytes type, data and checksum, two different messages differ in at least two (R97). -/
theorem exists_two_rawByte_ne {t d t' d' : Byte} (hne : (t, d) ≠ (t', d')) :
    ∃ i k, i < k ∧ k < 3 ∧ rawByte t d i ≠ rawByte t' d' i ∧ rawByte t d k ≠ rawByte t' d' k := by
  by_cases ht : t = t'
  · subst ht
    have hd : d ≠ d' := fun h => hne (h ▸ rfl)
    exact ⟨1, 2, by decide, by decide, hd, fun h => hd ((BitVec.xor_right_inj t).mp h)⟩
  · by_cases hd : d = d'
    · subst hd
      exact ⟨0, 2, by decide, by decide, ht, fun h => ht ((BitVec.xor_left_inj d).mp h)⟩
    · exact ⟨0, 1, by decide, by decide, ht, hd⟩

/-- The half of byte `b` that wire index `j` carries: the high nibble goes first (R42, R93).
`encodeBlock_getElem` ties it to the model. -/
def wireNibble (b : Byte) (j : Nat) : Nibble := if j % 2 = 0 then highNibble b else lowNibble b

@[simp] theorem wireNibble_even (b : Byte) (i : Nat) : wireNibble b (2 * i) = highNibble b := by
  simp [wireNibble]

@[simp] theorem wireNibble_odd (b : Byte) (i : Nat) : wireNibble b (2 * i + 1) = lowNibble b := by
  simp [wireNibble, Nat.add_mod]

@[simp] theorem wireNibble_zero (j : Nat) : wireNibble 0x00#8 j = 0#4 := ite_self _

theorem wireNibble_xor (x y : Byte) (j : Nat) : wireNibble (x ^^^ y) j = wireNibble x j ^^^ wireNibble y j := by
  rw [wireNibble, wireNibble, wireNibble]
  split
  · exact highNibble_xor x y
  · exact lowNibble_xor x y

/-- Different bytes differ in a half: in the one at wire index `2i` or in the one at `2i + 1`. -/
theorem exists_wireNibble_ne {x y : Byte} (hne : x ≠ y) (i : Nat) :
    ∃ j, j / 2 = i ∧ wireNibble x j ≠ wireNibble y j := by
  by_cases hhigh : highNibble x = highNibble y
  · refine ⟨2 * i + 1, by omega, fun hlow => hne ?_⟩
    rw [wireNibble_odd, wireNibble_odd] at hlow
    rw [← joinNibbles_highNibble_lowNibble x, hhigh, hlow, joinNibbles_highNibble_lowNibble]
  · exact ⟨2 * i, by omega, by rwa [wireNibble_even, wireNibble_even]⟩

/-- Every codeword of the wire block: index `j` carries a half of RawBlock byte `j / 2` (R42, R95). -/
theorem encodeBlock_getElem (n : BlockLength) (t d : Byte) (j : Nat) (h : j < 2 * n.val) :
    (encodeBlock n t d)[j] = hEnc (wireNibble (rawByte t d (j / 2)) j) := by
  obtain ⟨i, rfl | rfl⟩ := Nat.even_or_odd' j
  · rw [encodeBlock_even n t d i (by omega), wireNibble_even, Nat.mul_div_cancel_left i (by decide)]
  · rw [encodeBlock_odd n t d i (by omega), wireNibble_odd, show (2 * i + 1) / 2 = i by omega]

/-- From index 6 on the wire block carries the padding, whose codeword is zero (R95; D6, log 7). -/
theorem encodeBlock_getElem_of_six_le (n : BlockLength) (t d : Byte) (j : Nat) (h : j < 2 * n.val) (hj : 6 ≤ j) :
    (encodeBlock n t d)[j] = 0x00#8 := by
  rw [encodeBlock_getElem, rawByte_of_three_le t d (by omega), wireNibble_zero, hEnc_zero]

/-- Equal RawBlock bytes are sent as equal codewords. -/
theorem encodeBlock_getElem_congr (n : BlockLength) {t d t' d' : Byte} {j : Nat} (h : j < 2 * n.val)
    (hbyte : rawByte t d (j / 2) = rawByte t' d' (j / 2)) : (encodeBlock n t d)[j] = (encodeBlock n t' d')[j] := by
  rw [encodeBlock_getElem, encodeBlock_getElem, hbyte]

/-- RawBlock bytes that differ are sent with a codeword that differs. -/
theorem exists_encodeBlock_getElem_ne (n : BlockLength) {t d t' d' : Byte} {i : Nat} (hi : i < n.val)
    (hbyte : rawByte t d i ≠ rawByte t' d' i) :
    ∃ (j : Nat) (h : j < 2 * n.val), j / 2 = i ∧ (encodeBlock n t d)[j] ≠ (encodeBlock n t' d')[j] := by
  obtain ⟨j, rfl, hnibble⟩ := exists_wireNibble_ne hbyte i
  refine ⟨j, by omega, rfl, ?_⟩
  rw [encodeBlock_getElem, encodeBlock_getElem]
  exact hEnc_injective.ne hnibble

/-- Every byte of the wire block is a codeword of some nibble. -/
theorem exists_hEnc_of_mem_encodeBlock {n : BlockLength} {t d x : Byte} (hx : x ∈ (encodeBlock n t d).toList) :
    ∃ m : Nibble, x = hEnc m := by
  obtain ⟨j, hj, rfl⟩ := List.getElem_of_mem hx
  rw [Vector.length_toList] at hj
  exact ⟨_, encodeBlock_getElem n t d j hj⟩

/-- The wire block written out: the codewords of type, data and checksum, then zero padding (R95). -/
theorem encodeBlock_toList (n : BlockLength) (t d : Byte) :
    (encodeBlock n t d).toList =
      [hEnc (highNibble t), hEnc (lowNibble t), hEnc (highNibble d), hEnc (lowNibble d),
        hEnc (highNibble (csum t d)), hEnc (lowNibble (csum t d))] ++ List.replicate (2 * n.val - 6) 0x00#8 := by
  have hlength : 3 ≤ n.val := n.property
  apply List.ext_getElem
  · simp; omega
  · intro j hj _
    rw [Vector.length_toList] at hj
    rw [Vector.getElem_toList]
    obtain hmessage | hpadding := Nat.lt_or_ge j 6
    · rw [List.getElem_append_left hmessage, encodeBlock_getElem]
      interval_cases j <;> rfl
    · rw [List.getElem_append_right hpadding, List.getElem_replicate]
      exact encodeBlock_getElem_of_six_le n t d j hj hpadding

/-- Settles O13: ENCODE's response codeword by codeword, its encoding, and the blocks of the rule written out. -/
theorem encodeAnswersWireBlock : Obligations.EncodeAnswersWireBlock := by
  refine ⟨fun s a b c => ⟨_, exec_eq_answer (.encode a b c) s, rfl, rfl, rfl, ?_,
      encodeBlock_getElem_of_six_le s.blockLength a b, ?_⟩,
    fun a b c => decodeWord_encode (.encode a b c), fun n => ⟨?_, encodeBlock_toList n 0xFF#8 0xFF#8⟩, rfl,
    encodeBlock_toList ⟨4, by decide⟩ 0x05#8 0x0A#8⟩
  · intro i h x
    have hx : rawByte a b i = x := rawByte_eq_ite a b i
    exact ⟨hx ▸ encodeBlock_even s.blockLength a b i h, hx ▸ encodeBlock_odd s.blockLength a b i h⟩
  · intro x hx
    obtain ⟨m, rfl⟩ := exists_hEnc_of_mem_encodeBlock hx
    exact ⟨hEnc_getLsbD_seven m, validCodeword_hEnc m⟩
  · have hlength : 3 ≤ n.val := n.property
    have hsplit : 2 * n.val = 6 + (2 * n.val - 6) := by omega
    calc (encodeBlock n 0x00#8 0x00#8).toList
        = List.replicate 6 0x00#8 ++ List.replicate (2 * n.val - 6) 0x00#8 := encodeBlock_toList n 0x00#8 0x00#8
      _ = List.replicate (2 * n.val) 0x00#8 := by rw [List.replicate_append_replicate, ← hsplit]

/-- Settles O14: the same response answers in the state that shows it, for `responseOf` reads no earlier response. -/
theorem encodeIsTotalPureAndRepeatable : Obligations.EncodeIsTotalPureAndRepeatable := fun s a b c =>
  ⟨_, Vector.length_toList, exec_eq_answer (.encode a b c) s, exec_eq_answer (.encode a b c) _⟩

/-- Settles O15: the halves of a byte and the encoder are linear, and so each clause is one about the RawBlock byte
`j / 2`. -/
theorem wireBlockIsLinear : Obligations.WireBlockIsLinear := by
  intro n t1 d1 t2 d2 j h
  refine ⟨?_, fun hj => ?_, fun hlow hhigh => ?_, fun hlow hhigh hcsum => ?_, fun hj => ?_⟩
  · simp only [encodeBlock_getElem, rawByte_xor, wireNibble_xor, hEnc_xor]
  · have hbyte : j / 2 = 0 := by omega
    exact encodeBlock_getElem_congr n h (by rw [hbyte]; rfl)
  · have hbyte : j / 2 = 1 := by omega
    exact encodeBlock_getElem_congr n h (by rw [hbyte]; rfl)
  · have hbyte : j / 2 = 2 := by omega
    exact encodeBlock_getElem_congr n h (by rw [hbyte]; exact hcsum)
  · rw [encodeBlock_getElem_of_six_le n t1 d1 j h hj, encodeBlock_getElem_of_six_le n t2 d2 j h hj]

/-- Settles O16: two of the bytes type, data and checksum differ, each in the codeword of a half, and different
codewords lie at distance 3. -/
theorem differentMessagesDifferInTwoCodewords : Obligations.DifferentMessagesDifferInTwoCodewords := by
  intro n t d t' d' hne
  have hlength : 3 ≤ n.val := n.property
  constructor
  · obtain ⟨i, i', hlt, hmessage, hi, hi'⟩ := exists_two_rawByte_ne hne
    obtain ⟨j, hj, rfl, hcodeword⟩ := exists_encodeBlock_getElem_ne n (by omega) hi
    obtain ⟨k, hk, rfl, hcodeword'⟩ := exists_encodeBlock_getElem_ne n (by omega) hi'
    exact ⟨j, k, hj, hk, by omega, hcodeword, hcodeword'⟩
  · intro j h hcodeword
    rw [encodeBlock_getElem, encodeBlock_getElem] at hcodeword ⊢
    exact three_le_meaningfulFlips_hEnc_xor (ne_of_apply_ne hEnc hcodeword)

end Sys2Proof.Machine
end

section
/-! SUPPORT. CHK: the xor of its three operands is all it looks at, so damage to a matching triple shows exactly as the
damage alone would (spec/41_decode_path.md R111). -/

namespace Sys2Proof.Machine

/-- The check fails exactly when the xor of its operands is not zero (R111). -/
theorem chk_eq_xor_ne_zero (a b c : Byte) : chk a b c = (a ^^^ b ^^^ c != 0x00#8) := by
  rw [chk, csum, Bool.eq_iff_iff, bne_iff_ne, bne_iff_ne, Ne, Ne, BitVec.xor_eq_zero_iff]

theorem chk_comm (a b c : Byte) : chk a b c = chk b a c := by
  rw [chk, chk, csum_comm]

theorem chk_right_comm (a b c : Byte) : chk a b c = chk a c b := by
  rw [chk_eq_xor_ne_zero, chk_eq_xor_ne_zero, BitVec.xor_assoc, BitVec.xor_comm b, ← BitVec.xor_assoc]

/-- The check of two bytes and their checksum matches (R91, R111). -/
@[simp] theorem chk_csum (t d : Byte) : chk t d (csum t d) = false := (chk_eq_false_iff ..).mpr rfl

/-- Damage to a matching triple is seen as the damage alone would be: `xor` is linear (R111, R115). -/
theorem chk_xor_of_match {a b c : Byte} (hmatch : chk a b c = false) (e0 e1 e2 : Byte) :
    chk (a ^^^ e0) (b ^^^ e1) (c ^^^ e2) = chk e0 e1 e2 := by
  obtain rfl := (chk_eq_false_iff a b c).mp hmatch
  have hcancel : a ^^^ e0 ^^^ (b ^^^ e1) ^^^ (csum a b ^^^ e2) = e0 ^^^ e1 ^^^ e2 :=
    calc a ^^^ e0 ^^^ (b ^^^ e1) ^^^ (a ^^^ b ^^^ e2)
        = (a ^^^ a) ^^^ (b ^^^ b) ^^^ (e0 ^^^ e1 ^^^ e2) := by ac_rfl
      _ = e0 ^^^ e1 ^^^ e2 := by simp only [BitVec.xor_self, BitVec.zero_xor]
  rw [chk_eq_xor_ne_zero, hcancel, chk_eq_xor_ne_zero]

/-- A difference that is not zero, in one of the three bytes alone, is seen (R111, R115). -/
theorem chk_single {δ : Nat → Byte} {i : Nat} (hi : i < 3) (hdamage : δ i ≠ 0x00#8)
    (hothers : ∀ k, k ≠ i → δ k = 0x00#8) : chk (δ 0) (δ 1) (δ 2) = true := by
  have hxor : δ 0 ^^^ δ 1 ^^^ δ 2 = δ i := by
    match i, hi with
    | 0, _ => rw [hothers 1 (by decide), hothers 2 (by decide), BitVec.xor_zero, BitVec.xor_zero]
    | 1, _ => rw [hothers 0 (by decide), hothers 2 (by decide), BitVec.zero_xor, BitVec.xor_zero]
    | 2, _ => rw [hothers 0 (by decide), hothers 1 (by decide), BitVec.zero_xor, BitVec.zero_xor]
  rwa [chk_eq_xor_ne_zero, hxor, bne_iff_ne]

/-- Equal bytes have checksum zero (R91, R111). -/
@[simp] theorem chk_self_zero (a : Byte) : chk a a 0x00#8 = false := by
  rw [← csum_self a, chk_csum]

/-- No mask of one bit is zero. -/
theorem bitMask_ne_zero : ∀ k < 8, bitMask k ≠ 0x00#8 := by decide

/-- Settles O17: CHK's response, its encoding, and what the check sees of a damaged triple: the damage alone. -/
theorem chkAnswersMismatch : Obligations.ChkAnswersMismatch := by
  refine ⟨fun s a b c => ⟨_, exec_eq_answer (.chk a b c) s, chk_eq_true_iff a b c, rfl, rfl, rfl⟩,
    fun a b c => decodeWord_encode (.chk a b c),
    fun a b c e => ⟨?_, chk_comm a b c, chk_right_comm a b c, ?_, ?_, chk_self_zero a⟩, ?_, rfl, rfl⟩
  · rw [chk_eq_xor_ne_zero, bne_eq_false_iff_eq]
  · intro hmatch hne
    have hseen : ∀ e0 e1 e2 : Byte, e0 ^^^ e1 ^^^ e2 = e → chk (a ^^^ e0) (b ^^^ e1) (c ^^^ e2) = true := by
      intro e0 e1 e2 he
      rwa [chk_xor_of_match hmatch, chk_eq_xor_ne_zero, he, bne_iff_ne]
    exact ⟨by simpa using hseen e 0 0, by simpa using hseen 0 e 0, by simpa using hseen 0 0 e⟩
  · intro hmatch
    have hunseen : ∀ e0 e1 e2 : Byte, e0 ^^^ e1 ^^^ e2 = 0x00#8 → chk (a ^^^ e0) (b ^^^ e1) (c ^^^ e2) = false := by
      intro e0 e1 e2 he
      rw [chk_xor_of_match hmatch, chk_eq_xor_ne_zero, he, bne_self_eq_false]
    exact ⟨by simpa using hunseen e e 0, by simpa using hunseen e 0 e, by simpa using hunseen 0 e e⟩
  · intro a b k hk
    rw [chk_eq_xor_ne_zero, ← BitVec.xor_assoc, BitVec.xor_self, BitVec.zero_xor, bne_iff_ne]
    exact bitMask_ne_zero k hk

end Sys2Proof.Machine
end

section
/-! SUPPORT. A flipped codeword, by linearity: the decoder answers the sent nibble changed by what it makes of the
flips alone, and that is nothing exactly for at most one meaningful bit (spec/41_decode_path.md R110, R114;
spec/42_codeword_correction.md R131, R134, R136). -/

namespace Sys2Proof.Machine

/-- The parity is linear (R130). -/
theorem par_xor (x y : Byte) : par (x ^^^ y) = (par x ^^ par y) := by
  have hcomm : Std.Commutative Bool.xor := ⟨Bool.xor_comm⟩
  simp only [par, BitVec.getLsbD_xor]
  ac_rfl

/-- Each check is linear (R63). -/
theorem checkBit_xor (k : Check) (x y : Byte) : checkBit k (x ^^^ y) = (checkBit k x ^^ checkBit k y) := by
  have hmask : (x ^^^ y) &&& chkMask k = (x &&& chkMask k) ^^^ (y &&& chkMask k) := by
    apply BitVec.eq_of_getLsbD_eq
    intro i _
    simp only [BitVec.getLsbD_and, BitVec.getLsbD_xor, Bool.and_xor_distrib_right]
  rw [checkBit, hmask, par_xor, checkBit, checkBit]

/-- The syndrome of a flipped codeword is that of the flips: every check of a codeword is even (R131). -/
theorem syn_hEnc_xor (n : Nibble) (e : Byte) : syn (hEnc n ^^^ e) = syn e := by
  simp only [syn, checkBit_xor, checkBit_hEnc, Bool.false_xor]

/-- So the correction applied to a flipped codeword is the one applied to the flips (R133). -/
theorem correct_hEnc_xor (n : Nibble) (e : Byte) : correct (hEnc n ^^^ e) = hEnc n ^^^ correct e := by
  rw [correct, syn_hEnc_xor, BitVec.xor_assoc, ← correct]

/-- A flipped codeword decodes to the sent nibble changed by what the flips decode to (R134). -/
theorem hDec_hEnc_xor (n : Nibble) (e : Byte) : hDec (hEnc n ^^^ e) = n ^^^ hDec e := by
  rw [hDec, correct_hEnc_xor, lowNibble_xor, lowNibble_hEnc, ← hDec]

/-- The flips decode to nothing exactly when at most one of them is in a meaningful bit (R114, R136). -/
theorem hDec_eq_zero_iff (e : Byte) : hDec e = 0#4 ↔ meaningfulFlips e ≤ 1 := by
  revert e; decide

/-- Recombination is linear (R66). -/
theorem joinNibbles_xor (h l h' l' : Nibble) :
    joinNibbles (h ^^^ h') (l ^^^ l') = joinNibbles h l ^^^ joinNibbles h' l' := by
  simp only [joinNibbles_eq_append]
  exact BitVec.xor_append.symm

/-- Only two zero nibbles make the zero byte. -/
theorem joinNibbles_eq_zero_iff (h l : Nibble) : joinNibbles h l = 0x00#8 ↔ h = 0#4 ∧ l = 0#4 := by
  constructor
  · intro hzero
    have hhigh := highNibble_joinNibbles h l
    have hlow := lowNibble_joinNibbles h l
    rw [hzero] at hhigh hlow
    exact ⟨hhigh.symm, hlow.symm⟩
  · rintro ⟨rfl, rfl⟩
    rfl

/-- A byte whose two codewords are flipped is rebuilt as the sent byte changed by what the flips decode to (R110). -/
theorem byteDec_hEnc_xor (b e1 e2 : Byte) :
    byteDec (hEnc (highNibble b) ^^^ e1) (hEnc (lowNibble b) ^^^ e2) = b ^^^ byteDec e1 e2 := by
  rw [byteDec, hDec_hEnc_xor, hDec_hEnc_xor, joinNibbles_xor, joinNibbles_highNibble_lowNibble, ← byteDec]

/-- The flips leave the byte alone exactly when each codeword has at most one in a meaningful bit (R110, R136). -/
theorem byteDec_eq_zero_iff (e1 e2 : Byte) :
    byteDec e1 e2 = 0x00#8 ↔ meaningfulFlips e1 ≤ 1 ∧ meaningfulFlips e2 ≤ 1 := by
  rw [byteDec, joinNibbles_eq_zero_iff, hDec_eq_zero_iff, hDec_eq_zero_iff]

/-- Settles O20: the halves of the rebuilt byte, and flips that decode to nothing. -/
theorem codewordPairsDecodeIndependently : Obligations.CodewordPairsDecodeIndependently := by
  refine ⟨fun ch cl => ⟨rfl, highNibble_joinNibbles _ _, lowNibble_joinNibbles _ _⟩, ?_, by decide, by decide⟩
  intro b e1 e2 h1 h2
  calc byteDec (hEnc (highNibble b) ^^^ e1) (hEnc (lowNibble b) ^^^ e2)
      = b ^^^ byteDec e1 e2 := byteDec_hEnc_xor b e1 e2
    _ = b := by rw [(byteDec_eq_zero_iff e1 e2).mpr ⟨h1, h2⟩, BitVec.xor_zero]

end Sys2Proof.Machine
end

section
/-! SUPPORT. DECODE through the three rebuilt bytes it checks (spec/41_decode_path.md R112, R115, R116). -/

namespace Sys2Proof.Machine

/-- What DECODE makes of the three message bytes it has rebuilt; `decodeBlock_eq_ofBytes` ties it to the model. -/
def Decoded.ofBytes (b0 b1 b2 : Byte) : Decoded := if chk b0 b1 b2 then .fail else .ok b0 b1

/-- Two bytes above their checksum are accepted (R112). -/
@[simp] theorem Decoded.ofBytes_csum (t d : Byte) : Decoded.ofBytes t d (csum t d) = .ok t d := by
  simp [Decoded.ofBytes]

theorem Decoded.ofBytes_eq_fail_iff (b0 b1 b2 : Byte) : Decoded.ofBytes b0 b1 b2 = .fail ↔ chk b0 b1 b2 = true := by
  simp [Decoded.ofBytes]

/-- Bytes rebuilt with differences `e0`, `e1`, `e2` are accepted or not by the differences alone, and if accepted then
as they are (R115). -/
theorem Decoded.ofBytes_xor (t d e0 e1 e2 : Byte) :
    Decoded.ofBytes (t ^^^ e0) (d ^^^ e1) (csum t d ^^^ e2) =
      if chk e0 e1 e2 then .fail else .ok (t ^^^ e0) (d ^^^ e1) := by
  rw [Decoded.ofBytes, chk_xor_of_match (chk_csum t d)]

/-- DECODE reads codewords 0 to 5: the three message bytes (R112). -/
theorem decodeBlock_eq_ofBytes (n : BlockLength) (w : Vector Byte (2 * n.val)) :
    have _hn : 3 ≤ n.val := n.property
    decodeBlock n w = Decoded.ofBytes (byteDec (w[0]'(by omega)) (w[1]'(by omega)))
      (byteDec (w[2]'(by omega)) (w[3]'(by omega))) (byteDec (w[4]'(by omega)) (w[5]'(by omega))) :=
  decodeBlock_eq n w

/-- Settles O18: the match and the mismatch of the three rebuilt bytes. -/
theorem decodeAnswersPairOrFailure : Obligations.DecodeAnswersPairOrFailure := by
  refine ⟨fun s a b c => ?_, fun a b c => decodeWord_encode (.decode a b c)⟩
  intro hn b0 b1 b2
  have hresponse : responseOf (.decode a b c) s.blockLength s.win =
      (Decoded.ofBytes b0 b1 b2).toResponse s.blockLength :=
    congrArg (Decoded.toResponse s.blockLength) (decodeBlock_eq_ofBytes s.blockLength s.win)
  rw [exec_eq_answer, hresponse]
  constructor
  · intro hmatch
    have hok : Decoded.ofBytes b0 b1 b2 = .ok b0 b1 := hmatch ▸ Decoded.ofBytes_csum b0 b1
    rw [hok]; rfl
  · intro hmismatch
    have hfail : Decoded.ofBytes b0 b1 b2 = .fail :=
      (Decoded.ofBytes_eq_fail_iff b0 b1 b2).mpr ((chk_eq_true_iff b0 b1 b2).mpr hmismatch)
    rw [hfail]; rfl

/-- In a block of one repeated byte the three message bytes are the same. -/
theorem decodeBlock_replicate (n : BlockLength) (x : Byte) :
    decodeBlock n (Vector.replicate _ x) = Decoded.ofBytes (byteDec x x) (byteDec x x) (byteDec x x) := by
  simp only [decodeBlock_eq_ofBytes, Vector.getElem_replicate]

/-- Settles O19: for each repeated byte the one byte it stands for, `0x00`, `0xFF` and `0xFF`, is checked against
itself. -/
theorem constantBlocksDecode : Obligations.ConstantBlocksDecode := by
  refine ⟨fun n => ?_, by decide, by decide⟩
  simp only [decodeBlock_replicate]
  decide

/-- Settles O27: each block is decoded as it stands, the stream being the two wire blocks written out. -/
theorem silentWrongResultsExist : Obligations.SilentWrongResultsExist := by
  refine ⟨by decide, ?_, by decide⟩
  rw [encodeBlock_toList, encodeBlock_toList]
  rfl

/-- Two blocks that agree in codewords 0 to 5 are decoded alike: the padding is not looked at (R116; D14, log 10). -/
theorem decodeBlock_congr_of_lt_six {n : BlockLength} {v w : Vector Byte (2 * n.val)}
    (hagree : ∀ (j : Nat) (h : j < 2 * n.val), j < 6 → v[j] = w[j]) : decodeBlock n v = decodeBlock n w := by
  have hn : 3 ≤ n.val := n.property
  rw [decodeBlock_eq_ofBytes, decodeBlock_eq_ofBytes, hagree 0, hagree 1, hagree 2, hagree 3, hagree 4, hagree 5] <;>
    decide

/-- Settles O23. -/
theorem paddingDamageIsInvisible : Obligations.PaddingDamageIsInvisible := by
  intro s w a b c hagree
  refine ⟨_, exec_eq_answer (.decode a b c) s, ?_⟩
  rw [exec_eq_answer, responseOf, decodeBlock_congr_of_lt_six hagree]
  rfl

/-- Settles O25: every rebuilt byte is the sent one changed by its difference. -/
theorem decodeFailsExactlyOnResidualDifference : Obligations.DecodeFailsExactlyOnResidualDifference := by
  intro n t d w hn e0 e1 e2
  have hrebuilt (b x : Byte) : b = x ^^^ (b ^^^ x) := by
    rw [BitVec.xor_comm b, ← BitVec.xor_assoc, BitVec.xor_self, BitVec.zero_xor]
  have hdecode : decodeBlock n w = if chk e0 e1 e2 then .fail else .ok (t ^^^ e0) (d ^^^ e1) := by
    rw [← Decoded.ofBytes_xor, ← hrebuilt, ← hrebuilt, csum, ← hrebuilt]
    exact decodeBlock_eq_ofBytes n w
  rw [hdecode, chk_eq_xor_ne_zero]
  constructor
  · simp
  · intro hzero
    simp [hzero]

end Sys2Proof.Machine
end

section
/-! SUPPORT. A wire block damaged on the channel, codeword by codeword (spec/41_decode_path.md R113, R114, R115). -/

namespace Sys2Proof.Machine

/-- What the flips `e` in the codewords of a wire block change in byte `i` of the rebuilt RawBlock;
`rebuildRaw_damaged` ties it to the model. -/
def byteDamage (e : Nat → Byte) (i : Nat) : Byte := byteDec (e (2 * i)) (e (2 * i + 1))

/-- A byte is damaged unless each of its two codewords has at most one flip in a meaningful bit (R110, R136). -/
theorem byteDamage_eq_zero_iff (e : Nat → Byte) (i : Nat) :
    byteDamage e i = 0x00#8 ↔ meaningfulFlips (e (2 * i)) ≤ 1 ∧ meaningfulFlips (e (2 * i + 1)) ≤ 1 :=
  byteDec_eq_zero_iff _ _

section
variable {n : BlockLength} {t d : Byte} {e : Nat → Byte} {w : Vector Byte (2 * n.val)}
  (hw : ∀ (j : Nat) (h : j < 2 * n.val), w[j] = (encodeBlock n t d)[j] ^^^ e j)

include hw

/-- The receiver rebuilds each byte of the sent RawBlock with its damage (R112, R115). -/
theorem rebuildRaw_damaged (i : Nat) (h : i < n.val) :
    (rebuildRaw n w)[i] = rawByte t d i ^^^ byteDamage e i := by
  rw [rebuildRaw_getElem n w i h, hw, hw, encodeBlock_even n t d i h, encodeBlock_odd n t d i h, byteDec_hEnc_xor,
    byteDamage]

/-- What DECODE makes of a damaged wire block, from the damage of the three message bytes (R115). -/
theorem decodeBlock_damaged :
    decodeBlock n w =
      if chk (byteDamage e 0) (byteDamage e 1) (byteDamage e 2) then .fail
      else .ok (t ^^^ byteDamage e 0) (d ^^^ byteDamage e 1) := by
  rw [← Decoded.ofBytes_xor]
  simp only [decodeBlock, rebuildRaw_damaged hw]
  rfl

/-- With at most one meaningful bit flipped in each of codewords 0 to 5 the message arrives (R114). -/
theorem decodeBlock_of_single_flips (hflips : ∀ j < 6, meaningfulFlips (e j) ≤ 1) :
    decodeBlock n w = .ok t d := by
  have hnone (i : Nat) (hi : i < 3) : byteDamage e i = 0x00#8 :=
    (byteDamage_eq_zero_iff e i).mpr ⟨hflips _ (by omega), hflips _ (by omega)⟩
  rw [decodeBlock_damaged hw, hnone 0 (by decide), hnone 1 (by decide), hnone 2 (by decide)]
  simp

/-- With two or more meaningful bits flipped in one of codewords 0 to 5, the others as sent, the checksum does not
match: one byte of the three is damaged (R115). -/
theorem decodeBlock_of_multiple_flips {j : Nat} (hj : j < 6) (hflips : 2 ≤ meaningfulFlips (e j))
    (hothers : ∀ k, k ≠ j → e k = 0x00#8) :
    decodeBlock n w = .fail := by
  have hdamaged : byteDamage e (j / 2) ≠ 0x00#8 := by
    rw [Ne, byteDamage_eq_zero_iff]
    rintro ⟨heven, hodd⟩
    obtain hparity | hparity : 2 * (j / 2) = j ∨ 2 * (j / 2) + 1 = j := by omega
    · rw [hparity] at heven; omega
    · rw [hparity] at hodd; omega
  have hundamaged (i : Nat) (hi : i ≠ j / 2) : byteDamage e i = 0x00#8 := by
    rw [byteDamage, hothers _ (by omega), hothers _ (by omega)]
    rfl
  rw [decodeBlock_damaged hw, chk_single (by omega) hdamaged hundamaged, if_pos rfl]

end

/-- Settles O21: no flips at all. -/
theorem decodeOfEncodedPairIsOk : Obligations.DecodeOfEncodedPairIsOk := fun _ _ _ =>
  decodeBlock_of_single_flips (e := fun _ => 0x00#8) (fun _ _ => BitVec.xor_zero.symm) (fun _ _ => by decide)

/-- Settles O24: the wire block of the first block's response, flipped, is on `WIN` of the second. -/
theorem messageSurvivesOneFlipPerCodeword : Obligations.MessageSurvivesOneFlipPerCodeword := by
  rintro s ⟨n, cmd, win, old⟩ t d c a' b' c' e rfl hflips
  have hn : 3 ≤ s.blockLength.val := s.blockLength.property
  refine ⟨_, exec_eq_answer (.encode t d c) s, ?_⟩
  intro q
  have hwin (j : Nat) (h : j < 2 * s.blockLength.val) :
      (Vector.ofFn fun j : Fin (2 * s.blockLength.val) => q.bytes j.val)[j] =
        (encodeBlock s.blockLength t d)[j] ^^^ e j := by
    simp [q, responseOf]
  have hanswer : q.responseAt s.blockLength = (Decoded.ok t d).toResponse s.blockLength := by
    rw [Request.responseAt, decodeWord_encode, responseOf,
      decodeBlock_of_single_flips hwin fun j hj => hflips j (by omega)]
  refine ⟨_, transact_eq_next _ q, ?_⟩
  simp [hanswer]

/-- Settles O26: the flips are `e` at index `j` and none elsewhere. -/
theorem damagedCodewordAlwaysFails : Obligations.DamagedCodewordAlwaysFails := by
  intro n t d e j h hj hflips
  refine decodeBlock_of_multiple_flips (t := t) (d := d) (e := Function.update (fun _ => 0x00#8) j e) ?_ hj ?_ ?_
  · intro k hk
    obtain rfl | hne := eq_or_ne j k
    · simp
    · simp [hne, hne.symm]
  · rwa [Function.update_self]
  · intro k hne
    rw [Function.update_of_ne hne]

end Sys2Proof.Machine
end

section
/-! SUPPORT. The parity of a byte as a count of its ones (spec/42_codeword_correction.md R130). -/

namespace Sys2Proof.Machine

/-- A list has an odd number of members with a property exactly when the exclusive or of the property over the list
is true. -/
theorem length_filter_odd_iff {α : Type} (p : α → Bool) (l : List α) :
    (l.filter p).length % 2 = 1 ↔ l.foldr (fun k acc => p k ^^ acc) false = true := by
  induction l with
  | nil => simp
  | cons x xs ih =>
    rw [List.foldr_cons]
    cases hx : p x with
    | false => rw [List.filter_cons_of_neg (by simp [hx]), Bool.false_xor, ih]
    | true =>
      rw [List.filter_cons_of_pos hx, List.length_cons, Bool.true_xor, Bool.not_eq_true', ← Bool.not_eq_true, ← ih]
      omega

/-- The parity folds the exclusive or over the eight bits, in whichever order (R130). -/
theorem par_eq_foldr (v : Byte) : par v = (List.range 8).foldr (fun k acc => v.getLsbD k ^^ acc) false := by
  have hcomm : Std.Commutative Bool.xor := ⟨Bool.xor_comm⟩
  calc par v
      = (v.getLsbD 0 ^^ (v.getLsbD 1 ^^ (v.getLsbD 2 ^^ (v.getLsbD 3 ^^ (v.getLsbD 4 ^^ (v.getLsbD 5 ^^
          (v.getLsbD 6 ^^ v.getLsbD 7))))))) := by rw [par]; ac_rfl
    _ = (List.range 8).foldr (fun k acc => v.getLsbD k ^^ acc) false := by
        simp [List.range_succ, -BitVec.getLsbD_eq_getElem]

/-- Settles O37: the parity is the fold of the exclusive or, which counts modulo 2. -/
theorem parityCountsOddOnes : Obligations.ParityCountsOddOnes :=
  ⟨fun v => by rw [par_eq_foldr, length_filter_odd_iff], fun _ => rfl, rfl, rfl, rfl, rfl⟩

end Sys2Proof.Machine
end

section
/-! SUPPORT. The syndrome: its bits are the three checks, it is linear, and it is zero exactly for the valid codewords
with bit 7 either way; HSYN (spec/42_codeword_correction.md R131). -/

namespace Sys2Proof.Machine

/-- Where `syndromeOf` puts its three arguments (R131). -/
theorem syndromeOf_bits (c3 c2 c1 : Bool) : (syndromeOf c3 c2 c1).getLsbD 0 = c1 ∧
    (syndromeOf c3 c2 c1).getLsbD 1 = c2 ∧ (syndromeOf c3 c2 c1).getLsbD 2 = c3 := by
  revert c3 c2 c1; decide

/-- C1 is bit 0 of the syndrome (R131). -/
theorem getLsbD_zero_syn (x : Byte) : (syn x).getLsbD 0 = checkBit .c1 x := by
  simp only [syn, syndromeOf_bits]

/-- C2 is bit 1 of the syndrome (R131). -/
theorem getLsbD_one_syn (x : Byte) : (syn x).getLsbD 1 = checkBit .c2 x := by
  simp only [syn, syndromeOf_bits]

/-- C3 is bit 2 of the syndrome (R131). -/
theorem getLsbD_two_syn (x : Byte) : (syn x).getLsbD 2 = checkBit .c3 x := by
  simp only [syn, syndromeOf_bits]

/-- The syndrome is linear, since each check is (R131). -/
theorem syn_xor (x y : Byte) : syn (x ^^^ y) = syn x ^^^ syn y := by
  apply BitVec.eq_of_getLsbD_eq
  intro i hi
  rw [BitVec.getLsbD_xor]
  obtain rfl | rfl | rfl : i = 0 ∨ i = 1 ∨ i = 2 := by omega
  · simp only [getLsbD_zero_syn, checkBit_xor]
  · simp only [getLsbD_one_syn, checkBit_xor]
  · simp only [getLsbD_two_syn, checkBit_xor]

/-- The syndrome is zero exactly when every check is even (R63, R131). -/
theorem syn_eq_zero_iff_checks (x : Byte) : syn x = 0#3 ↔ ∀ k, checkBit k x = false := by
  constructor
  · intro hzero k
    cases k with
    | c1 => rw [← getLsbD_zero_syn, hzero]; rfl
    | c2 => rw [← getLsbD_one_syn, hzero]; rfl
    | c3 => rw [← getLsbD_two_syn, hzero]; rfl
  · intro hchecks
    rw [syn, hchecks, hchecks, hchecks]
    rfl

@[simp] theorem syn_hEnc (n : Nibble) : syn (hEnc n) = 0#3 :=
  (syn_eq_zero_iff_checks _).mpr fun k => checkBit_hEnc k n

/-- With syndrome zero, validity is a matter of bit 7 alone (R64, R131). -/
theorem validCodeword_iff_of_syn_eq_zero {x : Byte} (hzero : syn x = 0#3) :
    validCodeword x = true ↔ x.getLsbD 7 = false := by
  rw [validCodeword_iff_checks]
  exact and_iff_left ((syn_eq_zero_iff_checks x).mp hzero)

theorem syn_eq_zero_of_validCodeword {x : Byte} (hvalid : validCodeword x = true) : syn x = 0#3 :=
  (syn_eq_zero_iff_checks x).mpr ((validCodeword_iff_checks x).mp hvalid).2

/-- The syndrome is zero exactly for the valid codewords, with bit 7 either way (R131). -/
theorem syn_eq_zero_iff_validCodeword (x : Byte) :
    syn x = 0#3 ↔ validCodeword x = true ∨ validCodeword (x ^^^ 0x80#8) = true := by
  constructor
  · intro hzero
    have hzero' : syn (x ^^^ 0x80#8) = 0#3 := by rw [syn_xor_bitSeven, hzero]
    rw [validCodeword_iff_of_syn_eq_zero hzero, validCodeword_iff_of_syn_eq_zero hzero', BitVec.getLsbD_xor]
    cases x.getLsbD 7 with
    | false => exact .inl rfl
    | true => exact .inr rfl
  · rintro (hvalid | hvalid)
    · exact syn_eq_zero_of_validCodeword hvalid
    · rw [← syn_xor_bitSeven, syn_eq_zero_of_validCodeword hvalid]

/-- Zero extension adds no ones: the bits from `w` on are clear (R10). -/
theorem getLsbD_setWidth_of_le {w : Nat} (v : BitVec w) (m : Nat) {k : Nat} (hk : w ≤ k) :
    (v.setWidth m).getLsbD k = false := by
  rw [BitVec.getLsbD_setWidth, BitVec.getLsbD_of_ge v k hk, Bool.and_false]

/-- HSYN's result, bit by bit from the bits of `A` (R131). -/
theorem zextSyndrome_syn_bits (a : Byte) :
    (zextSyndrome (syn a)).getLsbD 0 = (a.getLsbD 6 ^^ a.getLsbD 3 ^^ a.getLsbD 1 ^^ a.getLsbD 0) ∧
    (zextSyndrome (syn a)).getLsbD 1 = (a.getLsbD 5 ^^ a.getLsbD 3 ^^ a.getLsbD 2 ^^ a.getLsbD 0) ∧
    (zextSyndrome (syn a)).getLsbD 2 = (a.getLsbD 4 ^^ a.getLsbD 3 ^^ a.getLsbD 2 ^^ a.getLsbD 1) := by
  have hbit (k : Nat) (hk : k < 8) : (zextSyndrome (syn a)).getLsbD k = (syn a).getLsbD k := by
    simp [zextSyndrome, hk, -BitVec.getLsbD_eq_getElem]
  refine ⟨?_, ?_, ?_⟩
  · rw [hbit 0 (by decide), getLsbD_zero_syn, checkBit_c1]
  · rw [hbit 1 (by decide), getLsbD_one_syn, checkBit_c2]
  · rw [hbit 2 (by decide), getLsbD_two_syn, checkBit_c3]

/-- Settles O28: HSYN's response bit by bit, its encoding, and the syndrome's corner cases. -/
theorem hsynAnswersSyndrome : Obligations.HsynAnswersSyndrome := by
  refine ⟨fun s a b c => ⟨_, exec_eq_answer (.hsyn a b c) s, rfl, ?_⟩,
    fun a b c => decodeWord_encode (.hsyn a b c),
    fun x y => ⟨syn_eq_zero_iff_validCodeword x, syn_xor_bitSeven x, syn_xor x y⟩, rfl, rfl, rfl, rfl⟩
  obtain ⟨h0, h1, h2⟩ := zextSyndrome_syn_bits a
  exact ⟨h0, h1, h2, fun _ hk => getLsbD_setWidth_of_le _ 8 hk, rfl⟩

end Sys2Proof.Machine
end

section
/-! SUPPORT. The correction table: the seven columns are all the syndromes but zero, so the flips of the meaningful bits
fix every entry (spec/42_codeword_correction.md R132). -/

namespace Sys2Proof.Machine

/-- The syndrome of one flip is the column of the flipped bit (R63, R131). -/
theorem syn_bitMask : ∀ k < 8, syn (bitMask k) = column k := by decide

/-- Every syndrome but zero is the column of a meaningful bit (R63). -/
theorem eq_zero_or_eq_column (s : Syndrome) : s = 0#3 ∨ ∃ k, k < 7 ∧ s = column k := by
  revert s; decide

/-- The entry at the column of a meaningful bit is the mask of that bit (R132). -/
theorem cor_column : ∀ k < 7, cor (column k) = bitMask k := by decide

@[simp] theorem cor_zero : cor 0#3 = 0x00#8 := rfl

/-- The table undoes the flip of a meaningful bit: the defining equation of R132. -/
theorem cor_syn_bitMask {k : Nat} (hk : k < 7) : cor (syn (bitMask k)) = bitMask k := by
  rw [syn_bitMask k (by omega), cor_column k hk]

/-- A table with the defining equation is `cor`: its entries are fixed at zero and at every column (R132). -/
theorem eq_cor_of_syn_bitMask {f : Syndrome → Byte} (hzero : f 0#3 = 0x00#8)
    (hflip : ∀ k, k < 7 → f (syn (bitMask k)) = bitMask k) : f = cor := by
  funext s
  obtain rfl | ⟨k, hk, rfl⟩ := eq_zero_or_eq_column s
  · rw [hzero, cor_zero]
  · rw [← syn_bitMask k (by omega), hflip k hk, cor_syn_bitMask hk]

/-- The entries are those R132 lists. -/
theorem cor_eq_corTable (s : Syndrome) : cor s = corTable[s.toNat] := by
  revert s; decide

theorem getLsbD_seven_bitMask : ∀ k < 7, (bitMask k).getLsbD 7 = false := by decide

/-- No entry has bit 7 set (R132). -/
@[simp] theorem getLsbD_seven_cor (s : Syndrome) : (cor s).getLsbD 7 = false := by
  obtain hzero | ⟨k, hk, hmask⟩ := cor_cases s
  · rw [hzero]; rfl
  · rw [hmask, getLsbD_seven_bitMask k hk]

/-- Settles O29: the defining equation, the uniqueness it gives, and the listed values. -/
theorem correctionTableIsTheOnlyOne : Obligations.CorrectionTableIsTheOnlyOne :=
  ⟨fun _ hk => cor_syn_bitMask hk, cor_zero, fun _ hzero hflip => eq_cor_of_syn_bitMask hzero hflip,
    fun s => ⟨cor_eq_corTable s, getLsbD_seven_cor s⟩⟩

end Sys2Proof.Machine
end

section
/-! SUPPORT. The correction: a table entry has the syndrome it stands at, so what is corrected has syndrome zero; HCOR
(spec/42_codeword_correction.md R133). -/

namespace Sys2Proof.Machine

/-- The mask the table calls for has the syndrome it was called for with (R132). -/
@[simp] theorem syn_cor (s : Syndrome) : syn (cor s) = s := by
  obtain rfl | ⟨k, hk, rfl⟩ := eq_zero_or_eq_column s
  · rfl
  · rw [cor_column k hk, syn_bitMask k (by omega)]

/-- A byte with syndrome zero is left as it is (R133). -/
theorem correct_of_syn_eq_zero {x : Byte} (hzero : syn x = 0#3) : correct x = x := by
  rw [correct, hzero, cor_zero, BitVec.xor_zero]

/-- Any other byte has exactly one bit changed: a zero mask would have syndrome zero (R133). -/
theorem exists_correct_eq_xor_bitMask {x : Byte} (hne : syn x ≠ 0#3) : ∃ k, k < 7 ∧ correct x = x ^^^ bitMask k := by
  obtain hzero | ⟨k, hk, hmask⟩ := cor_cases (syn x)
  · exact absurd (syn_cor (syn x)).symm (by rw [hzero]; exact hne)
  · exact ⟨k, hk, by rw [correct, hmask]⟩

/-- What is corrected has syndrome zero: the mask cancels the syndrome (R133). -/
@[simp] theorem syn_correct (x : Byte) : syn (correct x) = 0#3 := by
  rw [correct, syn_xor, syn_cor, BitVec.xor_self]

/-- Correcting again changes nothing (R133). -/
@[simp] theorem correct_correct (x : Byte) : correct (correct x) = correct x :=
  correct_of_syn_eq_zero (syn_correct x)

/-- Bit 7 passes through (R133). -/
@[simp] theorem getLsbD_seven_correct (x : Byte) : (correct x).getLsbD 7 = x.getLsbD 7 := by
  rw [correct, BitVec.getLsbD_xor, getLsbD_seven_cor, Bool.xor_false]

/-- What is corrected is a valid codeword exactly when bit 7 was clear (R133). -/
theorem validCodeword_correct_iff (x : Byte) : validCodeword (correct x) = true ↔ x.getLsbD 7 = false := by
  rw [validCodeword_iff_of_syn_eq_zero (syn_correct x), getLsbD_seven_correct]

/-- No check covers bit 7, so clearing it changes none (R63). -/
@[simp] theorem checkBit_and_clearSeven (k : Check) (x : Byte) : checkBit k (x &&& 0x7F#8) = checkBit k x := by
  have hmask : 0x7F#8 &&& chkMask k = chkMask k := by cases k <;> rfl
  rw [checkBit, BitVec.and_assoc, hmask, ← checkBit]

/-- Bits 6 to 0 of what is corrected are a valid codeword (R133). -/
theorem validCodeword_correct_and_clearSeven (x : Byte) : validCodeword (correct x &&& 0x7F#8) = true := by
  rw [validCodeword_iff_checks]
  refine ⟨?_, fun k => ?_⟩
  · rw [BitVec.getLsbD_and]; exact Bool.and_false _
  · rw [checkBit_and_clearSeven, (syn_eq_zero_iff_checks _).mp (syn_correct x)]

/-- Settles O30: HCOR's response with the listed table, its encoding, and the correction's corner cases. -/
theorem hcorAnswersCorrectedCodeword : Obligations.HcorAnswersCorrectedCodeword := by
  refine ⟨fun s a b c => ⟨_, exec_eq_answer (.hcor a b c) s, rfl, ?_, rfl⟩,
    fun a b c => decodeWord_encode (.hcor a b c),
    fun x => ⟨correct_of_syn_eq_zero, fun hne => ?_, syn_correct x, validCodeword_correct_and_clearSeven x,
      correct_correct x, getLsbD_seven_correct x, validCodeword_correct_iff x⟩, by decide⟩
  · rw [← cor_eq_corTable]; rfl
  · obtain ⟨k, hk, hcorrect⟩ := exists_correct_eq_xor_bitMask hne
    exact ⟨k, by omega, hcorrect⟩

end Sys2Proof.Machine
end

section
/-! SUPPORT. The single-codeword decoder: a byte with bit 7 clear is given by the nibble it decodes to and its syndrome,
so each nibble is the result for one value per syndrome; HDEC (spec/42_codeword_correction.md R134). -/

namespace Sys2Proof.Machine

/-- A mask of the table is corrected away (R132, R133). -/
@[simp] theorem correct_cor (s : Syndrome) : correct (cor s) = 0x00#8 := by
  rw [correct, syn_cor, BitVec.xor_self]

/-- A codeword with a mask of the table on it decodes to its nibble (R132, R134). -/
theorem hDec_hEnc_xor_cor (n : Nibble) (s : Syndrome) : hDec (hEnc n ^^^ cor s) = n := by
  rw [hDec, correct_hEnc_xor, correct_cor, BitVec.xor_zero, lowNibble_hEnc]

/-- A byte with bit 7 clear is the codeword of the nibble it decodes to, with the mask of its syndrome on it
(R133, R134). -/
theorem hEnc_hDec_xor_cor {x : Byte} (hbit7 : x.getLsbD 7 = false) : hEnc (hDec x) ^^^ cor (syn x) = x := by
  obtain ⟨n, hn⟩ := (validCodeword_iff_exists_hEnc _).mp ((validCodeword_correct_iff x).mpr hbit7)
  rw [hDec, hn, lowNibble_hEnc, ← hn, correct, BitVec.xor_assoc, BitVec.xor_self, BitVec.xor_zero]

/-- The bytes with bit 7 clear that decode to `n`, as numbers: its codeword with each mask of the table on it. -/
def decodedTo (n : Nibble) : List Nat := (List.finRange 8).map fun s => (hEnc n ^^^ cor (BitVec.ofFin s)).toNat

theorem length_decodedTo (n : Nibble) : (decodedTo n).length = 8 := by
  rw [decodedTo, List.length_map, List.length_finRange]

/-- The values differ in their syndromes. -/
theorem nodup_decodedTo (n : Nibble) : (decodedTo n).Nodup := by
  refine (List.nodup_finRange 8).map fun s t hst => ?_
  have hsyn := congrArg syn (BitVec.eq_of_toNat_eq hst)
  rw [syn_hEnc_xor, syn_hEnc_xor, syn_cor, syn_cor] at hsyn
  exact congrArg BitVec.toFin hsyn

/-- Bit 7 of a byte is clear exactly when its number is below 128. -/
theorem getLsbD_seven_eq_false_iff (x : Byte) : x.getLsbD 7 = false ↔ x.toNat < 128 := by
  revert x; decide

theorem mem_decodedTo_iff (n : Nibble) (v : Nat) : v ∈ decodedTo n ↔ v < 128 ∧ hDec (BitVec.ofNat 8 v) = n := by
  rw [decodedTo, List.mem_map]
  constructor
  · rintro ⟨s, -, rfl⟩
    rw [BitVec.ofNat_toNat, BitVec.setWidth_eq, hDec_hEnc_xor_cor, ← getLsbD_seven_eq_false_iff, BitVec.getLsbD_xor,
      hEnc_getLsbD_seven, getLsbD_seven_cor]
    exact ⟨rfl, rfl⟩
  · rintro ⟨hv, rfl⟩
    have htoNat : (BitVec.ofNat 8 v).toNat = v := by rw [BitVec.toNat_ofNat]; omega
    refine ⟨(syn (BitVec.ofNat 8 v)).toFin, List.mem_finRange _, ?_⟩
    rw [BitVec.ofFin_toFin, hEnc_hDec_xor_cor ((getLsbD_seven_eq_false_iff _).mpr (htoNat.symm ▸ hv)), htoNat]

/-- Each nibble is the result for exactly 8 of the 128 values of the meaningful bits: one per syndrome (R134). -/
theorem length_filter_hDec (n : Nibble) :
    ((List.range 128).filter fun v => hDec (BitVec.ofNat 8 v) == n).length = 8 := by
  have hmem (v : Nat) : v ∈ (List.range 128).filter (fun v => hDec (BitVec.ofNat 8 v) == n) ↔ v ∈ decodedTo n := by
    rw [List.mem_filter, List.mem_range, beq_iff_eq, mem_decodedTo_iff]
  have hperm := (List.perm_ext_iff_of_nodup (List.nodup_range.filter _) (nodup_decodedTo n)).mpr hmem
  exact hperm.length_eq.trans (length_decodedTo n)

/-- The masks at the columns of the parity bits, and at zero, are clear of the data bits (R61, R132). -/
theorem lowNibble_cor_of_parity {s : Syndrome} (hs : s = 0#3 ∨ s = 1#3 ∨ s = 2#3 ∨ s = 4#3) :
    lowNibble (cor s) = 0#4 := by
  obtain rfl | rfl | rfl | rfl := hs <;> rfl

/-- So with these syndromes the data bits stay as received (R134). -/
theorem hDec_of_parity_syndrome {x : Byte} (hs : syn x = 0#3 ∨ syn x = 1#3 ∨ syn x = 2#3 ∨ syn x = 4#3) :
    hDec x = lowNibble x := by
  rw [hDec, correct, lowNibble_xor, lowNibble_cor_of_parity hs, BitVec.xor_zero]

/-- Settles O31: HDEC's response, its encoding, and the decoder's corner cases. -/
theorem hdecAnswersNibble : Obligations.HdecAnswersNibble :=
  ⟨fun s a b c => ⟨_, exec_eq_answer (.hdec a b c) s, rfl, rfl, rfl, fun _ hk => getLsbD_setWidth_of_le _ 8 hk⟩,
    fun a b c => decodeWord_encode (.hdec a b c),
    fun n => ⟨hDec_hEnc n, length_filter_hDec n⟩,
    fun x => ⟨hDec_xor_bitSeven x, hDec_of_parity_syndrome⟩, rfl, rfl, rfl⟩

end Sys2Proof.Machine
end

section
/-! SUPPORT. One flip is undone, and more flips decode to another nibble: by linearity both are facts about the flips
alone (spec/42_codeword_correction.md R135, R136). -/

namespace Sys2Proof.Machine

/-- The mask of one meaningful bit is corrected away (R132, R135). -/
theorem correct_bitMask {k : Nat} (hk : k < 7) : correct (bitMask k) = 0x00#8 := by
  rw [← cor_syn_bitMask hk, correct_cor]

/-- A single flip of a meaningful bit of a codeword is undone (R135). -/
theorem correct_hEnc_xor_bitMask (n : Nibble) {k : Nat} (hk : k < 7) : correct (hEnc n ^^^ bitMask k) = hEnc n := by
  rw [correct_hEnc_xor, correct_bitMask hk, BitVec.xor_zero]

/-- A single flip of a meaningful bit shows in the syndrome (R135). -/
theorem syn_bitMask_ne_zero {k : Nat} (hk : k < 7) : syn (bitMask k) ≠ 0#3 := by
  rw [syn_bitMask k (by omega)]
  exact column_ne_zero k hk

theorem zextSyndrome_eq_zero_iff (s : Syndrome) : zextSyndrome s = 0x00#8 ↔ s = 0#3 := by
  revert s; decide

/-- Settles O32: of the flipped codeword each operation answers by what the flip alone gives. -/
theorem singleFlipIsCorrected : Obligations.SingleFlipIsCorrected := by
  intro s n k b c hk cw
  have hsyn : syn cw = syn (bitMask k) := syn_hEnc_xor n (bitMask k)
  have hcorrect : correct cw = hEnc n := correct_hEnc_xor_bitMask n hk
  have hdec : hDec cw = n := by rw [hDec, hcorrect, lowNibble_hEnc]
  have hdec7 : hDec (hEnc n ^^^ 0x80#8) = n := by rw [hDec_xor_bitSeven, hDec_hEnc]
  refine ⟨_, _, _, _, exec_eq_answer (.hsyn cw b c) s, congrArg zextSyndrome hsyn, ?_,
    exec_eq_answer (.hcor cw b c) s, hcorrect, exec_eq_answer (.hdec cw b c) s, congrArg zextNibble hdec,
    exec_eq_answer (.hdec (hEnc n ^^^ 0x80#8) b c) s, congrArg zextNibble hdec7⟩
  change zextSyndrome (syn cw) ≠ 0x00#8
  rw [hsyn, Ne, zextSyndrome_eq_zero_iff]
  exact syn_bitMask_ne_zero hk

/-- A byte is within one meaningful bit of the codeword of the nibble it decodes to, and of no other (R136). -/
theorem meaningfulFlips_xor_hEnc_le_one_iff (x : Byte) (n : Nibble) :
    meaningfulFlips (x ^^^ hEnc n) ≤ 1 ↔ n = hDec x := by
  rw [BitVec.xor_comm, ← hDec_eq_zero_iff, hDec_hEnc_xor, BitVec.xor_eq_zero_iff]

/-- Two or more flips of a codeword decode to another nibble (R136). -/
theorem hDec_hEnc_xor_ne {e : Byte} (n : Nibble) (hflips : 2 ≤ meaningfulFlips e) : hDec (hEnc n ^^^ e) ≠ n := by
  intro hdec
  have hnear := (meaningfulFlips_xor_hEnc_le_one_iff (hEnc n ^^^ e) n).mpr hdec.symm
  rw [BitVec.xor_comm, ← BitVec.xor_assoc, BitVec.xor_self, BitVec.zero_xor] at hnear
  omega

/-- A flip of bit 7 is not counted (R73). -/
@[simp] theorem meaningfulFlips_xor_bitSeven (e : Byte) : meaningfulFlips (e ^^^ 0x80#8) = meaningfulFlips e := by
  have hbits : ∀ k ∈ List.range 7, (e ^^^ 0x80#8).getLsbD k = e.getLsbD k := fun k hk =>
    getLsbD_xor_bitSeven e (List.mem_range.mp hk)
  rw [meaningfulFlips, List.filter_congr hbits, ← meaningfulFlips]

/-- A codeword has no meaningful bit set, or at least 3 (R64). -/
theorem meaningfulFlips_of_validCodeword {x : Byte} (hvalid : validCodeword x = true) :
    meaningfulFlips x = 0 ∨ 3 ≤ meaningfulFlips x := by
  obtain ⟨n, rfl⟩ := (validCodeword_iff_exists_hEnc x).mp hvalid
  obtain rfl | hne := eq_or_ne n 0#4
  · exact .inl rfl
  · exact .inr (three_le_meaningfulFlips_hEnc hne)

/-- So flips that no check sees are none, or at least 3 (R136). -/
theorem meaningfulFlips_of_syn_eq_zero {e : Byte} (hzero : syn e = 0#3) :
    meaningfulFlips e = 0 ∨ 3 ≤ meaningfulFlips e := by
  obtain hvalid | hvalid := (syn_eq_zero_iff_validCodeword e).mp hzero
  · exact meaningfulFlips_of_validCodeword hvalid
  · simpa using meaningfulFlips_of_validCodeword hvalid

/-- Settles O33: the nearest codeword, more flips than one, and two flips, which are no codeword. -/
theorem decoderFindsNearestCodeword : Obligations.DecoderFindsNearestCodeword := by
  refine ⟨meaningfulFlips_xor_hEnc_le_one_iff, fun n e => ⟨hDec_hEnc_xor_ne n, fun htwo hzero => ?_⟩⟩
  rw [syn_hEnc_xor] at hzero
  have hcount := meaningfulFlips_of_syn_eq_zero hzero
  omega

end Sys2Proof.Machine
end

section
/-! SUPPORT. Every response is lawful: `FAIL = 1` stands beside zeros, and only ENCODE drives `WOUT`, with codewords
(spec/60_exceptions.md R157; spec/30_encoding.md R64, R72, R73; spec/40_encode_path.md R95). -/

namespace Sys2Proof.Machine

/-- The zero byte is the codeword of the nibble 0 (R64). -/
@[simp] theorem validCodeword_zero : validCodeword 0x00#8 = true := hEnc_zero ▸ validCodeword_hEnc 0#4

/-- A response that drives no wire block is lawful when its byte results are zero beside `FAIL = 1`. -/
theorem Response.Lawful.of_wout_eq_zero {n : BlockLength} {r : Response n} (hwout : r.wout = Vector.replicate _ 0#8)
    (hfail : r.fail = true → r.res = 0#8 ∧ r.res2 = 0#8) : r.Lawful := by
  refine ⟨fun hset => ?_, fun b hb => ?_⟩
  · obtain ⟨hres, hres2⟩ := hfail hset
    exact ⟨hres, hres2, hwout⟩
  · rw [hwout, Vector.toList_replicate] at hb
    rw [List.eq_of_mem_replicate hb, validCodeword_zero]

/-- A response without failure is lawful when its wire block is made of valid codewords. -/
theorem Response.Lawful.of_fail_eq_false {n : BlockLength} {r : Response n} (hfail : r.fail = false)
    (hwout : ∀ b ∈ r.wout.toList, validCodeword b = true) : r.Lawful :=
  ⟨fun hset => absurd hset (Bool.eq_false_iff.mp hfail), hwout⟩

/-- ENCODE's wire block is made of valid codewords (R64, R95). -/
theorem validCodeword_of_mem_encodeBlock {n : BlockLength} {t d b : Byte} (hb : b ∈ (encodeBlock n t d).toList) :
    validCodeword b = true :=
  (validCodeword_iff_exists_hEnc b).mpr (exists_hEnc_of_mem_encodeBlock hb)

/-- Beside DECODE's `FAIL = 1` both byte results are zero (R112, R157; D13, log 11). -/
theorem Decoded.toResponse_zero_of_fail {n : BlockLength} {x : Decoded} (hset : (x.toResponse n).fail = true) :
    (x.toResponse n).res = 0#8 ∧ (x.toResponse n).res2 = 0#8 := by
  cases x with
  | ok t d => cases hset
  | fail => exact ⟨rfl, rfl⟩

/-- Every operation's response is lawful. ENCODE alone drives `WOUT`, and CHK and DECODE alone drive `FAIL`. -/
theorem responseOf_lawful (i : Instr) (n : BlockLength) (win : Vector Byte (2 * n.val)) :
    (responseOf i n win).Lawful := by
  cases i with
  | encode a b => exact .of_fail_eq_false rfl fun _ hb => validCodeword_of_mem_encodeBlock hb
  | chk => exact .of_wout_eq_zero rfl fun _ => ⟨rfl, rfl⟩
  | decode => exact .of_wout_eq_zero (Decoded.toResponse_wout n _) Decoded.toResponse_zero_of_fail
  | csum | henc => exact .of_wout_eq_zero rfl fun hset => nomatch hset
  | hsyn | hcor | hdec => exact .of_wout_eq_zero rfl fun hset => nomatch hset

/-- A state that shows a response keeps the invariant exactly when that response is lawful. -/
theorem State.respond_inv_iff {s : State} {r : Response s.blockLength} : (s.respond r).Inv ↔ r.Lawful :=
  ⟨fun hinv => hinv r (s.respond_response r), fun hlawful _ hr => Option.some.inj hr ▸ hlawful⟩

/-- Settles O47: the step replaces the response, and the new one is lawful whatever stood there before. -/
theorem stepKeepsResponsesLawful : Obligations.StepKeepsResponsesLawful := by
  intro s t _ hstep
  obtain rfl := step_eq_next_iff.mp hstep
  exact State.respond_inv_iff.mpr (responseOf_lawful _ _ _)

end Sys2Proof.Machine
end

section
/-! SUPPORT. The operation select as the upper bits of the command word, and which operations can raise `FAIL`
(spec/30_encoding.md R70, R71; spec/60_exceptions.md R150). -/

namespace Sys2Proof

/-- Every encoding carries its operation select in bits 26 to 24 (R70). -/
theorem extractLsb'_encode (i : Instr) : (encode i).extractLsb' 24 3 = i.opSelect := by
  cases i with
  | csum a b c => exact Laws.OperationSelect.csum a b c
  | henc a b c => exact Laws.OperationSelect.henc a b c
  | encode a b c => exact Laws.OperationSelect.encode a b c
  | chk a b c => exact Laws.OperationSelect.chk a b c
  | decode a b c => exact Laws.OperationSelect.decode a b c
  | hsyn a b c => exact Laws.OperationSelect.hsyn a b c
  | hcor a b c => exact Laws.OperationSelect.hcor a b c
  | hdec a b c => exact Laws.OperationSelect.hdec a b c

/-- The operation a word selects has the word's upper three bits, by arithmetic, as its `OP` (R70, R71). -/
theorem toNat_opSelect_decodeWord (w : CmdWord) : (decodeWord w).opSelect.toNat = w.toNat / 2 ^ 24 := by
  have hop : w.toNat / 2 ^ 24 < 2 ^ 3 := Nat.div_lt_of_lt_mul w.isLt
  rw [← extractLsb'_encode, encode_decodeWord, extractLsb'_eq_ofNat_div, BitVec.toNat_ofNat, Nat.mod_eq_of_lt hop]

namespace Machine

/-- Only CHK and DECODE raise `FAIL` (R26, R150). -/
theorem opSelect_of_responseOf_fail {i : Instr} {n : BlockLength} {win : Vector Byte (2 * n.val)}
    (hset : (responseOf i n win).fail = true) : i.opSelect = 3#3 ∨ i.opSelect = 4#3 := by
  cases i with
  | chk => exact .inl rfl
  | decode => exact .inr rfl
  | csum | henc | encode => cases hset
  | hsyn | hcor | hdec => cases hset

/-- Settles O7: the response is `responseOf` of the selected operation, whose `OP` stands in the upper bits of `CMD`. -/
theorem everyRequestHasOneResponse : Obligations.EveryRequestHasOneResponse := by
  intro s
  refine ⟨_, step_eq_next_iff.mpr rfl, fun hset => ?_⟩
  rw [← toNat_opSelect_decodeWord]
  exact (opSelect_of_responseOf_fail hset).imp (congrArg BitVec.toNat) (congrArg BitVec.toNat)

end Machine

end Sys2Proof
end

section
/-! SUPPORT. The causes of R151: what a response reports is its `FAIL`, and a codeword is changed exactly when its
syndrome is not zero (spec/60_exceptions.md R151 to R153; D19, log 14). -/

namespace Sys2Proof.Machine

/-- With `FAIL = 1` a response reports cause 2 (R153). -/
theorem Response.cause_of_fail {n : BlockLength} {r : Response n} (hset : r.fail = true) : r.cause = .uncorrectable :=
  if_pos hset

/-- With `FAIL = 0` a response reports no condition (R151). -/
theorem Response.cause_of_not_fail {n : BlockLength} {r : Response n} (hclear : r.fail = false) : r.cause = .none :=
  if_neg (Bool.eq_false_iff.mp hclear)

/-- DECODE's `FAIL` is the check of the three bytes it has rebuilt (R112). -/
@[simp] theorem Decoded.fail_toResponse_ofBytes (n : BlockLength) (b0 b1 b2 : Byte) :
    ((Decoded.ofBytes b0 b1 b2).toResponse n).fail = chk b0 b1 b2 := by
  rw [Decoded.ofBytes]
  cases chk b0 b1 b2 with
  | false => rfl
  | true => rfl

/-- The correction changes nothing exactly at syndrome zero, the syndrome of everything corrected (R133). -/
theorem correct_eq_self_iff (x : Byte) : correct x = x ↔ syn x = 0#3 :=
  ⟨fun hsame => hsame ▸ syn_correct x, correct_of_syn_eq_zero⟩

/-- A codeword meets cause 1 exactly when its syndrome is not zero (R152). -/
theorem codewordCause_eq_correctedBit_iff (x : Byte) : codewordCause x = .correctedBit ↔ syn x ≠ 0#3 := by
  rw [codewordCause]
  split
  · next hzero => exact iff_of_false nofun (not_not_intro hzero)
  · next hne => exact iff_of_true rfl hne

/-- Settles O41: DECODE's `FAIL` is the check of the corrected bytes, and the correction acts on nonzero syndromes. -/
theorem onlyChecksumMismatchIsReported : Obligations.OnlyChecksumMismatchIsReported := by
  refine ⟨fun s a b c => ?_, fun cw => ?_⟩
  · intro hn b0 b1 b2
    refine ⟨(Decoded.ofBytes b0 b1 b2).toResponse s.blockLength, ?_, ?_⟩
    · rw [← decodeBlock_eq_ofBytes]
      exact exec_eq_answer (.decode a b c) s
    · have hfail := Decoded.fail_toResponse_ofBytes s.blockLength b0 b1 b2
      by_cases hmatch : b0 ^^^ b1 = b2
      · rw [Response.cause_of_not_fail (hfail.trans ((chk_eq_false_iff ..).mpr hmatch))]
        exact ⟨iff_of_false nofun (not_not_intro hmatch), iff_of_true rfl hmatch, nofun, nofun⟩
      · rw [Response.cause_of_fail (hfail.trans ((chk_eq_true_iff ..).mpr hmatch))]
        exact ⟨iff_of_true rfl hmatch, iff_of_false nofun hmatch, nofun, nofun⟩
  · exact (codewordCause_eq_correctedBit_iff cw).trans (correct_eq_self_iff cw).not.symm

end Sys2Proof.Machine
end

section
/-! SUPPORT. A step reads neither the old response nor anything of the state before the request but its block length, so
reset has no effect (spec/70_reset_and_hazards.md R180; D16, log 1, log 12). -/

namespace Sys2Proof.Machine

/-- A step gives the same next state whatever response stood there before: none is read, and the new one replaces it
(R20). -/
theorem step_with_response (s : State) (old : Option (Response s.blockLength)) :
    step { s with response := old } = step s :=
  calc step { s with response := old }
      = .next (s.respond (responseOf (decodeWord s.cmd) s.blockLength s.win)) := step_eq_next_iff.mpr rfl
    _ = step s := (step_eq_next_iff.mpr rfl).symm

/-- A driven request leaves nothing of the state before it but the block length (R22, R27). -/
theorem State.drive_eq_of_blockLength_eq {s t : State} (hlength : s.blockLength = t.blockLength) (q : Request) :
    s.drive q = t.drive q := by
  rw [State.drive, State.drive, hlength]

/-- Settles O45: the step does not read the old response, and the driven request stands alike in blocks of one
length. -/
theorem firstTransactionAfterResetIsLikeAnyOther : Obligations.FirstTransactionAfterResetIsLikeAnyOther := by
  intro s hlength q old
  refine ⟨?_, _, transact_eq_next State.reset q⟩
  rw [step_with_response, State.drive_eq_of_blockLength_eq hlength]

end Sys2Proof.Machine
end
